-- ==== Sys2Proof/Word.lean ====
section
/-! DEFINITION. The word types of the block (spec/00_scope.md rules R6 and R9). -/

namespace Sys2Proof

/-- A word: 32 bits, unsigned (R9). Its addition `+` is `add32`, modulo 2^32 (R10, R123). -/
abbrev Word := BitVec 32

/-- A byte: 8 bits, unsigned (R9). -/
abbrev Byte := BitVec 8

/-- An address of the buffer space (20_memory.md R65): 32 bits. Its addition wraps (R73). -/
abbrev Addr := BitVec 32

/-- A word file: the sixteen words of X or of W, row-major 4 by 4 (10_state.md R22, R23). -/
abbrev Words := Vector Word 16

/-- An index into a word file: a 4-bit field of a command word names one (30_encoding.md R92). -/
abbrev WIndex := Fin 16

end Sys2Proof
end

