-- ==== Sys2Proof/Syntax.lean ====
section
/-! DEFINITION. The command set `CHACHA-CORE command set 1` (spec/30_encoding.md rule R93): one constructor per
row of opcode_table.json. -/

namespace Sys2Proof

/-- The nine commands (R93). An index names a word of the working copy W (R92); `imm8` is the unsigned 8-bit
rotation amount, illegal amounts included (R92, R129). -/
inductive Instr where
  /-- `ROTL a, b, imm8`: W[a] <- rotl32(W[b], imm8) (R129). -/
  | rotl (a b : WIndex) (imm8 : Byte)
  /-- `QR a, b, c, d`: the quarter round on four words of W (R142). -/
  | qr (a b c d : WIndex)
  /-- `INIT`: the state initializer, KEY, NONCE and CTR into X (R165). -/
  | init
  /-- `COPY`: W <- X (R167). -/
  | copy
  /-- `PERMUTE`: ROUNDS/2 double rounds on W (R183). -/
  | permute
  /-- `FINAL`: X <- X + W word by word (R191). -/
  | final
  /-- `BLOCK`: the block builder (R196). -/
  | block
  /-- `CIPHER`: keystream exclusive-or over the working buffer (R210). -/
  | cipher
  /-- `WIPE`: X <- 0, W <- 0 (R230). -/
  | wipe
deriving DecidableEq, Repr

end Sys2Proof
end

