-- ==== Sys2Proof/WellFormed.lean ====
section
/-! DEFINITION. Which commands have an encoding (spec/30_encoding.md rules R94 and R98). -/

namespace Sys2Proof

/-- Four indices pairwise distinct: the six inequalities of R94. -/
def distinctIndices (a b c d : WIndex) : Bool :=
  decide (a ≠ b) && decide (a ≠ c) && decide (a ≠ d) && decide (b ≠ c) && decide (b ≠ d) && decide (c ≠ d)

/-- A command is well formed when its word decodes to it: every ROTL is, whatever its amount (R98); a QR is when
its four indices are pairwise distinct (R94); the commands of format Z have no operand. -/
def Instr.wf : Instr → Bool
  | .rotl _ _ _ => true
  | .qr a b c d => distinctIndices a b c d
  | .init => true
  | .copy => true
  | .permute => true
  | .final => true
  | .block => true
  | .cipher => true
  | .wipe => true

end Sys2Proof
end

