-- ==== Sys2Proof/Decode.lean ====
section
/-! DEFINITION. The decoder, total on all 2^32 command words, and the encoder (spec/30_encoding.md rules R90 to
R98). Decoding depends on no state (R97). -/

namespace Sys2Proof

/-- Why a word is illegal (R96). All three raise the one fault E_CMD (60_exceptions.md R244); the names tell the
reader which rule the word breaks. -/
inductive Illegal where
  /-- No row of R93 has this opcode (R93, R96). -/
  | unlistedOpcode
  /-- A listed opcode with a bit set in a field its format leaves unused (R91, R95). -/
  | reservedFieldSet
  /-- A QR word with imm8 = 0 in which two indices are equal (R94). -/
  | repeatedIndex
deriving DecidableEq, Repr

/-- What decoding answers: a command, or ILLEGAL (R98). -/
inductive Decoded where
  | cmd (i : Instr)
  | illegal (why : Illegal)
deriving DecidableEq, Repr

/-- `w[31:24]` (R90). -/
def opField (w : Word) : BitVec 8 := w.extractLsb' 24 8

/-- `w[23:20]`, the first index (R90, R92). -/
def aField (w : Word) : WIndex := (w.extractLsb' 20 4).toFin

/-- `w[19:16]`, the second index (R90, R92). -/
def bField (w : Word) : WIndex := (w.extractLsb' 16 4).toFin

/-- `w[15:12]`, the third index (R90, R92). -/
def cField (w : Word) : WIndex := (w.extractLsb' 12 4).toFin

/-- `w[11:8]`, the fourth index (R90, R92). -/
def dField (w : Word) : WIndex := (w.extractLsb' 8 4).toFin

/-- `w[7:0]`, the immediate (R90, R92). -/
def imm8Field (w : Word) : Byte := w.extractLsb' 0 8

/-- The opcodes of format Z: no operand field is used (R91, R93). -/
def formatZOpcode (op : BitVec 8) : Bool :=
  op == 0x10 || op == 0x11 || op == 0x12 || op == 0x13 || op == 0x14 || op == 0x20 || op == 0x30

/-- Which rule an illegal word breaks. DESIGN CHOICE (log 14): the spec has the one answer ILLEGAL; a word that
breaks several rules gets the first name in the order opcode, reserved field, repeated index. -/
def whyIllegal (w : Word) : Illegal :=
  if opField w == 0x01 || formatZOpcode (opField w) then .reservedFieldSet
  else if opField w == 0x02 then (if imm8Field w = 0 then .repeatedIndex else .reservedFieldSet)
  else .unlistedOpcode

/-- The decode function of R98, line by line. -/
def decode (w : Word) : Decoded :=
  if opField w = 0x01 ∧ cField w = 0 ∧ dField w = 0 then
    .cmd (.rotl (aField w) (bField w) (imm8Field w))
  else if opField w = 0x02 ∧ imm8Field w = 0 ∧ distinctIndices (aField w) (bField w) (cField w) (dField w) then
    .cmd (.qr (aField w) (bField w) (cField w) (dField w))
  else if w = 0x10000000 then .cmd .init
  else if w = 0x11000000 then .cmd .copy
  else if w = 0x12000000 then .cmd .permute
  else if w = 0x13000000 then .cmd .final
  else if w = 0x14000000 then .cmd .block
  else if w = 0x20000000 then .cmd .cipher
  else if w = 0x30000000 then .cmd .wipe
  else .illegal (whyIllegal w)

/-- An index placed in a command word with its lowest bit at bit `lo`. -/
def placeIndex (k : WIndex) (lo : Nat) : Word := BitVec.ofNat 32 k.val <<< lo

/-- The encoder: the inverse given in R98, with the words of R93. -/
def encode : Instr → Word
  | .rotl a b imm8 => 0x01000000 ||| placeIndex a 20 ||| placeIndex b 16 ||| imm8.setWidth 32
  | .qr a b c d => 0x02000000 ||| placeIndex a 20 ||| placeIndex b 16 ||| placeIndex c 12 ||| placeIndex d 8
  | .init => 0x10000000
  | .copy => 0x11000000
  | .permute => 0x12000000
  | .final => 0x13000000
  | .block => 0x14000000
  | .cipher => 0x20000000
  | .wipe => 0x30000000

/-- The command of a decoding, if it is one. -/
def Decoded.instr? : Decoded → Option Instr
  | .cmd i => some i
  | .illegal _ => none

/-- The command word whose `nbits` low bits are those of `w` and whose other bits are 0 (log 15). Every command is
exactly one 32-bit word (R90), and the table numbers its bits as the word does. -/
def tableWord (nbits w : Nat) : Word := BitVec.ofNat 32 (w % 2 ^ nbits)

/-- What the decoder reads from an instruction given as the opcode table numbers its bits. -/
def decodeTableWord (nbits w : Nat) : Option Instr := (decode (tableWord nbits w)).instr?

end Sys2Proof
end

