-- ==== Sys2Proof/Config.lean ====
section
/-! DEFINITION. What the platform fixes (spec/00_scope.md rule R6, spec/20_memory.md rules R72 and R75).
The block itself has no implementation parameter left open and no free value (93_implementation_defined.md,
end of part 1); the one OPEN parameter is which buffer addresses the platform admits. -/

namespace Sys2Proof

/-- A range of buffer addresses that the platform admits: `size` addresses from `base` on (R72). -/
structure Region where
  base : Nat
  size : Nat
deriving DecidableEq, Repr

/-- The admitted addresses that `State.reset` starts with: all 2^32 of them.
DESIGN CHOICE, unsafe (log 4): the spec leaves `admit` open (R6, R72). No statement rests on this value: every
statement about admission is about every list of ranges. -/
def Config.resetMap : List Region := [⟨0, 2 ^ 32⟩]

end Sys2Proof
end

