-- ==== Sys2Proof/Machine/State.lean ====
section
/-! DEFINITION. The state: the block exactly as spec/10_state.md rule R20 lists it, and around it what the block
works on (the host's buffer memory, the platform's admitted addresses) and the host's side of the interface. -/

namespace Sys2Proof.Machine

/-- The complete state of the block, "and nothing else" (R20): 1637 bits. -/
structure Block where
  /-- The state matrix X[0..15], then the keystream block (R22). -/
  x : Words
  /-- The working copy W[0..15] (R23). -/
  w : Words
  /-- KEY[0..31] (R26). -/
  key : Vector Byte 32
  /-- NONCE[0..11] (R27). -/
  nonce : Vector Byte 12
  /-- KEY_LEN, the key length in bytes that the host declares (R28). -/
  keyLen : Word
  /-- ROUNDS, two's complement (R29). -/
  rounds : Word
  /-- CTR, the starting block counter (R30). -/
  ctr : Word
  /-- BUF_ADDR, the address of byte 0 of the working buffer (R31). -/
  bufAddr : Word
  /-- BUF_LEN, the length of the working buffer in bytes (R31). -/
  bufLen : Word
  /-- STATUS.FAULT: the block is in the faulted state (R32, R37). -/
  fault : Bool
  /-- STATUS.CAUSE, 4 bits: the code of the fault (R32). -/
  cause : BitVec 4
  /-- FCMD, the command word that faulted (R33). -/
  fcmd : Word
  /-- CCTR, the counter after the last CIPHER command (R34). -/
  cctr : Word
  /-- NBLK, the number of blocks the last CIPHER command built (R34). -/
  nblk : Word
deriving DecidableEq, Repr

/-- One action of the host, complete before the next begins (00_scope.md R7, 20_memory.md R77). A register is named
by its word index, offset / 4, so an access that is not an aligned word of the register space cannot be written
down (20_memory.md R62). -/
inductive HostAction where
  /-- The reset event (70_reset_and_hazards.md R270). -/
  | reset
  /-- `HostRead(4k)` (46_system.md R232). -/
  | read (k : Fin 64)
  /-- `HostWrite(4k, v)` (46_system.md R233); with k = 0 it issues the command word v (R234). -/
  | write (k : Fin 64) (v : Word)
  /-- The host reads a byte of its own buffer memory (20_memory.md R65, R77 item 3). DEDUCED, log 6. -/
  | load (a : Addr)
  /-- The host stores a byte to its own buffer memory (20_memory.md R65, R77 item 2). DEDUCED, log 6. -/
  | store (a : Addr) (v : Byte)
deriving DecidableEq, Repr

/-- Buffer memory as (address, byte) pairs in one canonical form: addresses strictly rising and below 2^32, no entry
equal to what an unlisted address reads as (20_memory.md R65; log 3). -/
abbrev Memory := List Host.Cell

/-- The machine's state. -/
structure State where
  /-- The block (10_state.md R20). -/
  block : Block
  /-- The buffer space: the host's memory as the engine sees it (20_memory.md R65). Not state of the block. -/
  mem : Memory
  /-- The addresses the platform admits (20_memory.md R72), as ranges; nothing changes it. Log 4. -/
  map : List Region
  /-- The actions the host has still to take, first one first: the machine's input. The model's own field, log 1. -/
  host : List HostAction
  /-- The words the host's reads have returned, first one first (30_encoding.md R99). The model's own field, log 7. -/
  reads : List Word
deriving DecidableEq, Repr

/-- Why a step has no next state. A fault of the BLOCK (60_exceptions.md R240) is none of these: it is a next state in
which STATUS.FAULT is 1. -/
inductive Fault where
  /-- Raised by CIPHER when an address of its working buffer is not admitted by the platform: the engine is stuck
  (20_memory.md R72, 93_implementation_defined.md U4). Safe: the model stops where the spec gives no result. -/
  | bufferAddressNotAdmitted
  /-- Raised by the host's own load or store of a buffer byte at an address that the platform does not admit
  (20_memory.md R72). Safe: the model stops where the spec gives no result. Log 6. -/
  | hostAddressNotAdmitted
deriving DecidableEq, Repr

/-- Why an instruction has no meaning. -/
inductive Refusal where
  /-- Answered by exec for an instruction whose meaning is not written; no arm does so now. Safe. -/
  | notModelled (mnemonic : String)
deriving DecidableEq, Repr

/-- The outcome of a command, of a host action and of a step. -/
abbrev Result := Host.Outcome State Fault Refusal

/-- The block after reset: every item of R20 is zero (10_state.md R41, 70_reset_and_hazards.md R270). -/
def Block.reset : Block where
  x := Vector.replicate 16 0
  w := Vector.replicate 16 0
  key := Vector.replicate 32 0
  nonce := Vector.replicate 12 0
  keyLen := 0
  rounds := 0
  ctr := 0
  bufAddr := 0
  bufLen := 0
  fault := false
  cause := 0
  fcmd := 0
  cctr := 0
  nblk := 0

/-- The machine right after reset: the block as R41 says, no byte of buffer memory listed (log 3), every address
admitted (DESIGN CHOICE, log 4), and the block waiting for the host's first action (R271; logs 1 and 2). -/
def State.reset : State where
  block := Block.reset
  mem := []
  map := Config.resetMap
  host := []
  reads := []

end Sys2Proof.Machine
end

