-- ==== Sys2Proof/Machine/Ops.lean ====
section
/-! DEFINITION. The named operations over memory and registers, taking a fault, and the one way back from it
(spec/20_memory.md rules R65 to R73, spec/60_exceptions.md rules R240 to R250). -/

namespace Sys2Proof.Machine

/-! ### Buffer memory -/

/-- What an address that the memory list does not name reads as. DESIGN CHOICE, unsafe (log 3): the spec gives the
host's memory no contents. -/
def unlistedByte : Byte := 0

/-- The value listed for the key `k`, or `unlistedByte`. -/
def lookupCell : Memory → Nat → Byte
  | [], _ => unlistedByte
  | (k', v) :: m, k => if k' = k then v else lookupCell m k

/-- Put a cell in front of the first one with a larger key. -/
def insertCell (k : Nat) (v : Byte) : Memory → Memory
  | [] => [(k, v)]
  | (k', v') :: m => if k < k' then (k, v) :: (k', v') :: m else (k', v') :: insertCell k v m

/-- `MemRead(a, 1)` (00_scope.md R12; 20_memory.md R74: it returns the last value written). -/
def Memory.readByte (m : Memory) (a : Addr) : Byte := lookupCell m a.toNat

/-- `MemWrite(a, 1, v)` (00_scope.md R12), keeping the canonical form: what is listed for the address goes, and a cell
is listed again only if its byte is not what an unlisted address reads as. -/
def Memory.writeByte (m : Memory) (a : Addr) (v : Byte) : Memory :=
  let rest := m.filter fun c => decide (c.1 ≠ a.toNat)
  if v = unlistedByte then rest else insertCell a.toNat v rest

/-- Every key of the list is above `lo`, keys rise strictly, keys are addresses, and no byte is `unlistedByte`. -/
def cellsAbove : Nat → Memory → Bool
  | _, [] => true
  | lo, (k, v) :: m => decide (lo ≤ k) && decide (k < 2 ^ 32) && decide (v ≠ unlistedByte) && cellsAbove (k + 1) m

/-- The canonical form of a memory list. -/
def Memory.wf (m : Memory) : Bool := cellsAbove 0 m

/-! ### Admission of buffer addresses -/

/-- `admit(a)`: the platform admits the address `a` (20_memory.md R72). -/
def admits (map : List Region) (a : Addr) : Bool :=
  map.any fun r => decide (r.base ≤ a.toNat) && decide (a.toNat < r.base + r.size)

/-- The address of byte `i` of the working buffer, `(BUF_ADDR + i) mod 2^32` (20_memory.md R65, R73). -/
def bufferAddr (b : Block) (i : Nat) : Addr := b.bufAddr + BitVec.ofNat 32 i

/-- Every address of the working buffer is admitted (20_memory.md R72). -/
def bufferAdmitted (s : State) : Bool :=
  (List.range s.block.bufLen.toNat).all fun i => admits s.map (bufferAddr s.block i)

/-! ### Registers -/

/-- `X[i] <- v` (00_scope.md R11). -/
def Block.setX (b : Block) (i : WIndex) (v : Word) : Block := { b with x := b.x.set i v }

/-- `W[i] <- v` (00_scope.md R11). -/
def Block.setW (b : Block) (i : WIndex) (v : Word) : Block := { b with w := b.w.set i v }

/-- The machine with another block state; memory and the host's side stay. -/
def State.withBlock (s : State) (b : Block) : State := { s with block := b }

/-! ### Faults -/

/-- The four fault causes of the block, and no others (60_exceptions.md R240). -/
inductive Cause where
  /-- Rotation amount 0 or at least 32; raised by ROTL (R241). -/
  | eRot
  /-- KEY_LEN is not 32; raised by INIT, BLOCK and CIPHER (R242). -/
  | eKeyLen
  /-- ROUNDS is not positive and even; raised by PERMUTE, BLOCK and CIPHER (R243). -/
  | eRounds
  /-- The command word is illegal (R244). -/
  | eCmd
deriving DecidableEq, Repr

/-- The code of a cause in STATUS.CAUSE (R240). -/
def Cause.code : Cause → BitVec 4
  | .eRot => 1
  | .eKeyLen => 2
  | .eRounds => 3
  | .eCmd => 4

/-- Fault entry on the block: exactly the three writes of 60_exceptions.md R247. -/
def Block.enterFault (b : Block) (c : Cause) (word : Word) : Block :=
  { b with fault := true, cause := c.code, fcmd := word }

/-- TAKING A FAULT: `raise Fault(code)` while executing the command word `word` (R247). No mode changes, nothing else
is saved and control goes nowhere: there is no handler and no vector. -/
def State.raise (s : State) (c : Cause) (word : Word) : State := s.withBlock (s.block.enterFault c word)

/-- THE WAY BACK: there is no return from a fault (60_exceptions.md R250). Reset is the only way out of the faulted
state; it sets every item of the block to zero and does not touch buffer memory (70_reset_and_hazards.md R270). -/
def State.resetBlock (s : State) : State := s.withBlock Block.reset

end Sys2Proof.Machine
end

