-- ==== Sys2Proof/Machine/Operands.lean ====
section
/-! DEFINITION. The operands of the commands: rotation, packing and unpacking of words, the key, nonce and keystream
views, the tests on KEY_LEN and ROUNDS (spec/40_rotate_pack.md, spec/10_state.md R28, R29, R38,
spec/43_permutation.md R180). -/

namespace Sys2Proof.Machine

/-! ### Arithmetic -/

/-- `add32(x, y) = (x + y) mod 2^32` (00_scope.md R10, 40_rotate_pack.md R123): no carry out, no overflow. -/
def add32 (x y : Word) : Word := x + y

/-- The legal rotation amounts, exactly 1 to 31 (R121). `rotl32` takes no other: the spec forbids giving it a value
for 0 or for 32 and more (R121, 93 U1). -/
abbrev RotAmount := { n : Nat // 1 ≤ n ∧ n ≤ 31 }

/-- `rotl32(x, n) = ((x << n) mod 2^32) | (x >> (32 - n))` for 1 <= n <= 31 (R120). -/
def rotl32 (x : Word) (n : RotAmount) : Word := (x <<< n.val) ||| (x >>> (32 - n.val))

/-! ### Packing -/

/-- `pack32le(b0, b1, b2, b3) = b0 | b1<<8 | b2<<16 | b3<<24` (R124). -/
def pack32le (b0 b1 b2 b3 : Byte) : Word :=
  b0.setWidth 32 ||| (b1.setWidth 32 <<< 8) ||| (b2.setWidth 32 <<< 16) ||| (b3.setWidth 32 <<< 24)

/-- Byte `k` of `unpack32le(w)`: `(w >> 8k) & 0xFF` (R125). -/
def byteOf (w : Word) (k : Fin 4) : Byte := (w >>> (8 * k.val)).setWidth 8

/-- `unpack32le(w) = (w[7:0], w[15:8], w[23:16], w[31:24])` (R125). -/
def unpack32le (w : Word) : Byte × Byte × Byte × Byte := (byteOf w 0, byteOf w 1, byteOf w 2, byteOf w 3)

/-- `bswap32(w)`, the four bytes in reverse order (R126). No rule of this hardware applies it to any state (R127). -/
def bswap32 (w : Word) : Word := pack32le (byteOf w 3) (byteOf w 2) (byteOf w 1) (byteOf w 0)

/-! ### Views of the byte files and of X -/

/-- `pack32le(KEY[4j], KEY[4j+1], KEY[4j+2], KEY[4j+3])` (20_memory.md R64, 42_state_initializer.md R162). -/
def keyWord (key : Vector Byte 32) (j : Fin 8) : Word :=
  pack32le key[4 * j.val] key[4 * j.val + 1] key[4 * j.val + 2] key[4 * j.val + 3]

/-- `pack32le(NONCE[4j], NONCE[4j+1], NONCE[4j+2], NONCE[4j+3])` (20_memory.md R64, 42_state_initializer.md R164). -/
def nonceWord (nonce : Vector Byte 12) (j : Fin 3) : Word :=
  pack32le nonce[4 * j.val] nonce[4 * j.val + 1] nonce[4 * j.val + 2] nonce[4 * j.val + 3]

/-- A host write of `v` to KEYWj: `KEY[4j+k] <- (v >> 8k) & 0xFF` for k = 0..3 (20_memory.md R64). -/
def setKeyWord (key : Vector Byte 32) (j : Fin 8) (v : Word) : Vector Byte 32 :=
  (((key.set (4 * j.val) (byteOf v 0)).set (4 * j.val + 1) (byteOf v 1)).set (4 * j.val + 2) (byteOf v 2)).set
    (4 * j.val + 3) (byteOf v 3)

/-- A host write of `v` to NONCEWj: `NONCE[4j+k] <- (v >> 8k) & 0xFF` for k = 0..3 (20_memory.md R64). -/
def setNonceWord (nonce : Vector Byte 12) (j : Fin 3) (v : Word) : Vector Byte 12 :=
  (((nonce.set (4 * j.val) (byteOf v 0)).set (4 * j.val + 1) (byteOf v 1)).set (4 * j.val + 2) (byteOf v 2)).set
    (4 * j.val + 3) (byteOf v 3)

/-- `KS[j] = (X[j div 4] >> (8 * (j mod 4))) & 0xFF` for 0 <= j <= 63: the keystream block, a view of X
(10_state.md R38, 44_finalizer_block.md R192). -/
def keystreamByte (x : Words) (j : Fin 64) : Byte :=
  byteOf x[j.val / 4] ⟨j.val % 4, Nat.mod_lt _ (by decide)⟩

/-! ### Preconditions -/

/-- KEY_LEN is the only legal value, 32 (10_state.md R28). -/
def keyLenValid (k : Word) : Bool := k == 32

/-- `RoundsValid(r) = (r[31] == 0) and (r[0] == 0) and (r != 0)` (43_permutation.md R180). -/
def roundsValid (r : Word) : Bool := !r.getLsbD 31 && !r.getLsbD 0 && r != 0


end Sys2Proof.Machine
end

