-- ==== Sys2Proof/Machine/Initializer.lean ====
section
/-! DEFINITION. The state initializer, the INIT and COPY commands (spec/42_state_initializer.md). -/

namespace Sys2Proof.Machine

/-- The four constant words: the 16 ASCII characters of `expand 32-byte k` packed little-endian (R161). They are wired
(10_state.md R40). -/
def const0 : Word := pack32le 0x65 0x78 0x70 0x61

/-- Characters 4 to 7, `nd 3` (R161). -/
def const1 : Word := pack32le 0x6E 0x64 0x20 0x33

/-- Characters 8 to 11, `2-by` (R161). -/
def const2 : Word := pack32le 0x32 0x2D 0x62 0x79

/-- Characters 12 to 15, `te k` (R161). -/
def const3 : Word := pack32le 0x74 0x65 0x20 0x6B

/-- The initialized matrix for a key, a nonce and a counter value: constants, key words, counter, nonce words
(R160 to R164). The counter enters as its numeric value: no packing and no byte swap (R163). -/
def initWords (key : Vector Byte 32) (nonce : Vector Byte 12) (ctr : Word) : Words :=
  #v[const0, const1, const2, const3,
     keyWord key 0, keyWord key 1, keyWord key 2, keyWord key 3,
     keyWord key 4, keyWord key 5, keyWord key 6, keyWord key 7,
     ctr, nonceWord nonce 0, nonceWord nonce 1, nonceWord nonce 2]

/-- `InitState(ctr)`: writes all sixteen words of X from the constants, KEY, ctr and NONCE (R160). -/
def initState (ctr : Word) (b : Block) : Block := { b with x := initWords b.key b.nonce ctr }

/-- `W[i] <- X[i]` for i = 0..15 (R167). -/
def copyWords (b : Block) : Block := { b with w := b.x }

/-- `INIT`: E_KEYLEN when KEY_LEN is not 32, before any write; otherwise InitState(CTR) (R165). -/
def execInit (s : State) : Result :=
  if keyLenValid s.block.keyLen then
    .next (s.withBlock (initState s.block.ctr s.block))
  else
    .next (s.raise .eKeyLen (encode .init))

/-- `COPY`: no precondition, copies whatever X holds (R167). -/
def execCopy (s : State) : Result := .next (s.withBlock (copyWords s.block))

end Sys2Proof.Machine
end

