-- ==== Sys2Proof/Machine/QuarterRound.lean ====
section
/-! DEFINITION. The quarter round, the column, diagonal and double rounds, and the QR command
(spec/41_quarter_round.md). -/

namespace Sys2Proof.Machine

/-- `QuarterRound(a, b, c, d)`: the twelve assignments of R140 in the order written, on local values. The rotation
amounts 16, 12, 8 and 7 are wired (10_state.md R40). -/
def quarterRound (a b c d : Word) : Word × Word × Word × Word :=
  let a := add32 a b
  let d := d ^^^ a
  let d := rotl32 d ⟨16, by decide⟩
  let c := add32 c d
  let b := b ^^^ c
  let b := rotl32 b ⟨12, by decide⟩
  let a := add32 a b
  let d := d ^^^ a
  let d := rotl32 d ⟨8, by decide⟩
  let c := add32 c d
  let b := b ^^^ c
  let b := rotl32 b ⟨7, by decide⟩
  (a, b, c, d)

/-- The register update of QR: read W[a], W[b], W[c], W[d], then write the same four words (R142). -/
def qrWords (a b c d : WIndex) (w : Words) : Words :=
  let r := quarterRound w[a] w[b] w[c] w[d]
  (((w.set a r.1).set b r.2.1).set c r.2.2.1).set d r.2.2.2

/-- `ColumnRound(W)` (R143). -/
def columnRound (w : Words) : Words :=
  qrWords 3 7 11 15 (qrWords 2 6 10 14 (qrWords 1 5 9 13 (qrWords 0 4 8 12 w)))

/-- `DiagonalRound(W)` (R144). -/
def diagonalRound (w : Words) : Words :=
  qrWords 3 4 9 14 (qrWords 2 7 8 13 (qrWords 1 6 11 12 (qrWords 0 5 10 15 w)))

/-- `DoubleRound(W)`: a column round immediately followed by a diagonal round (R145). -/
def doubleRound (w : Words) : Words := diagonalRound (columnRound w)

/-- `QR a, b, c, d` (R142): writes the four named words and nothing else. Two equal indices are no QR command: the word
is illegal, E_CMD with nothing written (R94, R96). The decoder never gives such a term; for one built by hand the
meaning answers what issuing its word answers. DEDUCED (log 9). -/
def execQr (a b c d : WIndex) (s : State) : Result :=
  if distinctIndices a b c d then
    .next (s.withBlock { s.block with w := qrWords a b c d s.block.w })
  else
    .next (s.raise .eCmd (encode (.qr a b c d)))

end Sys2Proof.Machine
end

