-- ==== Sys2Proof/Machine/Permutation.lean ====
section
/-! DEFINITION. The permutation engine and the PERMUTE command (spec/43_permutation.md). -/

namespace Sys2Proof.Machine

/-- The double round applied `n` times, one after another: the loop of R181, with its trip count fixed before it
starts. -/
def doubleRounds : Nat → Words → Words
  | 0, w => w
  | n + 1, w => doubleRounds n (doubleRound w)

/-- `Permute(r)`: r / 2 double rounds on W in place (R181). -/
def permuteW (r : Word) (b : Block) : Block := { b with w := doubleRounds (r.toNat / 2) b.w }

/-- `PERMUTE`: E_ROUNDS when ROUNDS is not positive and even, before any write; otherwise Permute(ROUNDS). KEY_LEN is
not read (R183). Large round counts run as the hardware runs them (log 18). -/
def execPermute (s : State) : Result :=
  if roundsValid s.block.rounds then
    .next (s.withBlock (permuteW s.block.rounds s.block))
  else
    .next (s.raise .eRounds (encode .permute))

end Sys2Proof.Machine
end

