-- ==== Sys2Proof/Machine/Finalizer.lean ====
section
/-! DEFINITION. The finalizer, the block builder, the FINAL and BLOCK commands (spec/44_finalizer_block.md). -/

namespace Sys2Proof.Machine

/-- The sixteen sums `add32(x[i], w[i])` (R190). -/
def addWords (x w : Words) : Words := Vector.ofFn fun i : WIndex => add32 x[i] w[i]

/-- `FeedForward()`: `X[i] <- add32(X[i], W[i])` for i = 0..15; W keeps its value (R190). -/
def feedForward (b : Block) : Block := { b with x := addWords b.x b.w }

/-- `FINAL`: no precondition; no byte is ever swapped (R191). -/
def execFinal (s : State) : Result := .next (s.withBlock (feedForward s.block))

/-- `BuildBlock(ctr, r)`: state initializer, copy, permutation, finalizer, in that order (R193). -/
def buildBlock (ctr r : Word) (b : Block) : Block := feedForward (permuteW r (copyWords (initState ctr b)))

/-- `BLOCK`: E_KEYLEN, then E_ROUNDS, both before any write; otherwise BuildBlock(CTR, ROUNDS). It does not advance CTR
and does not touch CCTR, NBLK or buffer memory (R195, R196). -/
def execBlock (s : State) : Result :=
  if keyLenValid s.block.keyLen then
    if roundsValid s.block.rounds then
      .next (s.withBlock (buildBlock s.block.ctr s.block.rounds s.block))
    else
      .next (s.raise .eRounds (encode .block))
  else
    .next (s.raise .eKeyLen (encode .block))

end Sys2Proof.Machine
end

