-- ==== Sys2Proof/Machine/Cipher.lean ====
section
/-! DEFINITION. The counter-mode driver, the XOR unit and the CIPHER command (spec/45_keystream_cipher.md). -/

namespace Sys2Proof.Machine

/-- What a CIPHER command works on while it runs: the block, buffer memory, and the transient current counter `cc` and
block count `nb` (10_state.md R39). -/
structure CipherRun where
  block : Block
  mem : Memory
  cc : Word
  nb : Word
deriving DecidableEq, Repr

/-- At a chunk boundary, `i mod 64 == 0`: build the block for the current counter, then advance the counter and the
block count (R211). -/
def chunkBoundary (i : Nat) (c : CipherRun) : CipherRun :=
  if i % 64 = 0 then
    { c with block := buildBlock c.cc c.block.rounds c.block, cc := c.cc + 1, nb := c.nb + 1 }
  else c

/-- The XOR unit on byte `i`: `buffer[i] <- buffer[i] ^ KS[i mod 64]`, read once and then written once
(R212; 20_memory.md R71). -/
def xorByte (i : Nat) (c : CipherRun) : CipherRun :=
  let a := bufferAddr c.block i
  { c with mem := c.mem.writeByte a (c.mem.readByte a ^^^ keystreamByte c.block.x (Fin.ofNat 64 i)) }

/-- The loop body of R210 for `n` bytes from index `i` on, in ascending order. -/
def cipherBytes : (n i : Nat) → CipherRun → CipherRun
  | 0, _, c => c
  | n + 1, i, c => cipherBytes n (i + 1) (xorByte i (chunkBoundary i c))

/-- A CIPHER command at its first byte: `cc = CTR`, `nb = 0` (R210). -/
def cipherStart (s : State) : CipherRun := { block := s.block, mem := s.mem, cc := s.block.ctr, nb := 0 }

/-- The state after the last byte: `CCTR <- cc; NBLK <- nb` (R210). -/
def cipherEnd (s : State) (c : CipherRun) : State :=
  { s with block := { c.block with cctr := c.cc, nblk := c.nb }, mem := c.mem }

/-- `CIPHER` (R210): E_KEYLEN first (R217), then E_ROUNDS when BUF_LEN > 0 (R218), both before any write and any memory
access; then the loop over the BUF_LEN bytes of the working buffer. A working buffer with an address that the platform
does not admit has no meaning in the spec and gets no step (20_memory.md R72; log 5). -/
def execCipher (s : State) : Result :=
  if keyLenValid s.block.keyLen then
    if s.block.bufLen ≠ 0 ∧ roundsValid s.block.rounds = false then
      .next (s.raise .eRounds (encode .cipher))
    else if bufferAdmitted s then
      .next (cipherEnd s (cipherBytes s.block.bufLen.toNat 0 (cipherStart s)))
    else
      .fault .bufferAddressNotAdmitted
  else
    .next (s.raise .eKeyLen (encode .cipher))

end Sys2Proof.Machine
end

