-- ==== Sys2Proof/Machine/RotatePack.lean ====
section
/-! DEFINITION. The ROTL command (spec/40_rotate_pack.md rule R129). -/

namespace Sys2Proof.Machine

/-- `ROTL a, b, imm8`: E_ROT when imm8 is 0 or at least 32, raised before any write; otherwise
W[a] <- rotl32(W[b], imm8), the source read before the destination is written (R129). -/
def execRotl (a b : WIndex) (imm8 : Byte) (s : State) : Result :=
  if h : 1 ≤ imm8.toNat ∧ imm8.toNat ≤ 31 then
    .next (s.withBlock (s.block.setW a (rotl32 s.block.w[b] ⟨imm8.toNat, h⟩)))
  else
    .next (s.raise .eRot (encode (.rotl a b imm8)))

end Sys2Proof.Machine
end

