-- ==== Sys2Proof/Machine/System.lean ====
section
/-! DEFINITION. The WIPE command (spec/46_system.md rule R230). -/

namespace Sys2Proof.Machine

/-- `X[i] <- 0; W[i] <- 0` for i = 0..15 (R230). -/
def wipeWords (b : Block) : Block := { b with x := Vector.replicate 16 0, w := Vector.replicate 16 0 }

/-- `WIPE`: no precondition; KEY, the parameters, CCTR, NBLK and buffer memory stay (R230). -/
def execWipe (s : State) : Result := .next (s.withBlock (wipeWords s.block))

end Sys2Proof.Machine
end

