-- ==== Sys2Proof/Machine/Dispatch.lean ====
section
/-! DEFINITION. One arm per command (spec/30_encoding.md rule R93). -/

namespace Sys2Proof.Machine

/-- Execute a command to completion or to its fault (spec/46_system.md R234). -/
def exec (i : Instr) (s : State) : Host.Outcome State Fault Refusal :=
  match i with
  | .rotl a b imm8 => Sys2Proof.Machine.execRotl a b imm8 s
  | .qr a b c d => Sys2Proof.Machine.execQr a b c d s
  | .init => Sys2Proof.Machine.execInit s
  | .copy => Sys2Proof.Machine.execCopy s
  | .permute => Sys2Proof.Machine.execPermute s
  | .final => Sys2Proof.Machine.execFinal s
  | .block => Sys2Proof.Machine.execBlock s
  | .cipher => Sys2Proof.Machine.execCipher s
  | .wipe => Sys2Proof.Machine.execWipe s

end Sys2Proof.Machine
end

