-- ==== Sys2Proof/Machine/Flags.lean ====
section
/-! DEFINITION. The status word (spec/10_state.md rules R32 and R37). STATUS.FAULT is the only flag of the block: no
command writes a flag as a side effect of computing a value, and there is no carry, zero, sign or overflow flag. -/

namespace Sys2Proof.Machine

/-- STATUS as the host reads it, `{0[31:12], CAUSE[3:0], 0[7:1], FAULT}` = CAUSE << 8 | FAULT
(10_state.md R32, 46_system.md R232). -/
def statusWord (b : Block) : Word := (b.cause.setWidth 32 <<< 8) ||| (if b.fault then 1 else 0)

end Sys2Proof.Machine
end

