-- ==== Sys2Proof/Machine/Registers.lean ====
section
/-! DEFINITION. The register space as the host sees it (spec/20_memory.md rules R61 to R64, spec/10_state.md rule R42,
spec/46_system.md rules R232 and R233). -/

namespace Sys2Proof.Machine

/-- The registers of the map of R61, under their names. -/
inductive HostReg where
  | cmd
  | status
  | fcmd
  | keyLen
  | rounds
  | ctr
  | bufAddr
  | bufLen
  | cctr
  | nblk
  | keyw (j : Fin 8)
  | noncew (j : Fin 3)
  | x (i : WIndex)
  | w (i : WIndex)
deriving DecidableEq, Repr

/-- The register at offset 4k, or none at a reserved offset (R61). -/
def regAt (k : Fin 64) : Option HostReg :=
  if k.val = 0 then some .cmd
  else if k.val = 1 then some .status
  else if k.val = 2 then some .fcmd
  else if k.val = 3 then some .keyLen
  else if k.val = 4 then some .rounds
  else if k.val = 5 then some .ctr
  else if k.val = 6 then some .bufAddr
  else if k.val = 7 then some .bufLen
  else if k.val = 8 then some .cctr
  else if k.val = 9 then some .nblk
  else if h : 16 ≤ k.val ∧ k.val < 24 then some (.keyw ⟨k.val - 16, by omega⟩)
  else if h : 24 ≤ k.val ∧ k.val < 27 then some (.noncew ⟨k.val - 24, by omega⟩)
  else if h : 32 ≤ k.val ∧ k.val < 48 then some (.x ⟨k.val - 32, by omega⟩)
  else if h : 48 ≤ k.val then some (.w ⟨k.val - 48, by omega⟩)
  else none

/-- The word index of a register: its offset in R61 divided by 4. -/
def HostReg.index : HostReg → Fin 64
  | .cmd => 0
  | .status => 1
  | .fcmd => 2
  | .keyLen => 3
  | .rounds => 4
  | .ctr => 5
  | .bufAddr => 6
  | .bufLen => 7
  | .cctr => 8
  | .nblk => 9
  | .keyw j => ⟨16 + j.val, by omega⟩
  | .noncew j => ⟨24 + j.val, by omega⟩
  | .x i => ⟨32 + i.val, by omega⟩
  | .w i => ⟨48 + i.val, by omega⟩

/-- The value the host reads from a register; the CMD port reads as 0 (10_state.md R35, 46_system.md R232). -/
def readReg (b : Block) : HostReg → Word
  | .cmd => 0
  | .status => statusWord b
  | .fcmd => b.fcmd
  | .keyLen => b.keyLen
  | .rounds => b.rounds
  | .ctr => b.ctr
  | .bufAddr => b.bufAddr
  | .bufLen => b.bufLen
  | .cctr => b.cctr
  | .nblk => b.nblk
  | .keyw j => keyWord b.key j
  | .noncew j => nonceWord b.nonce j
  | .x i => b.x[i]
  | .w i => b.w[i]

/-- A host write to a register other than CMD. STATUS, FCMD, CCTR and NBLK are read-only: the write is ignored
(10_state.md R42, 20_memory.md R63). CMD stores nothing (10_state.md R35); a write to it goes to `issue`. -/
def writeReg (b : Block) (r : HostReg) (v : Word) : Block :=
  match r with
  | .cmd => b
  | .status => b
  | .fcmd => b
  | .keyLen => { b with keyLen := v }
  | .rounds => { b with rounds := v }
  | .ctr => { b with ctr := v }
  | .bufAddr => { b with bufAddr := v }
  | .bufLen => { b with bufLen := v }
  | .cctr => b
  | .nblk => b
  | .keyw j => { b with key := setKeyWord b.key j v }
  | .noncew j => { b with nonce := setNonceWord b.nonce j v }
  | .x i => b.setX i v
  | .w i => b.setW i v

/-- `HostRead(4k)`: changes nothing, works the same whether or not the block is faulted; a reserved offset reads 0
(46_system.md R232, 20_memory.md R63). -/
def hostRead (k : Fin 64) (b : Block) : Word :=
  match regAt k with
  | some r => readReg b r
  | none => 0

end Sys2Proof.Machine
end

