-- ==== Sys2Proof/Machine/HostActions.lean ====
section
/-! DEFINITION. The actions of the host: command issue, register reads and writes, reset, and the host's own access to
its buffer memory (spec/46_system.md rules R232 to R234, spec/70_reset_and_hazards.md R270). -/

namespace Sys2Proof.Machine

/-- `Issue(w)`, what a host write of w to CMD does when STATUS.FAULT is 0: an illegal word raises E_CMD, any other runs
its command to completion or to its fault (46_system.md R234). -/
def issue (w : Word) (s : State) : Result :=
  match decode w with
  | .illegal _ => .next (s.raise .eCmd w)
  | .cmd i => exec i s

/-- `HostWrite(4k, v)` (46_system.md R233): ignored while the block is faulted (60_exceptions.md R249); CMD issues the
command; a reserved offset ignores the write (20_memory.md R63). -/
def hostWrite (k : Fin 64) (v : Word) (s : State) : Result :=
  if s.block.fault then .next s
  else
    match regAt k with
    | none => .next s
    | some .cmd => issue v s
    | some r => .next (s.withBlock (writeReg s.block r v))

/-- A word returned to the host. -/
def State.returned (s : State) (v : Word) : State := { s with reads := s.reads ++ [v] }

/-- One action of the host, whole (00_scope.md R7). The host's own load and store of a buffer byte need an address that
exists (20_memory.md R72); log 6. -/
def hostAct (act : HostAction) (s : State) : Result :=
  match act with
  | .reset => .next s.resetBlock
  | .read k => .next (s.returned (hostRead k s.block))
  | .write k v => hostWrite k v s
  | .load a =>
    if admits s.map a then .next (s.returned ((s.mem.readByte a).setWidth 32)) else .fault .hostAddressNotAdmitted
  | .store a v =>
    if admits s.map a then .next { s with mem := s.mem.writeByte a v } else .fault .hostAddressNotAdmitted

end Sys2Proof.Machine
end

