-- ==== Sys2Proof/Machine/Step.lean ====
section
/-! DEFINITION. One step: the next action of the host, whole (spec/00_scope.md rule R7, spec/20_memory.md rule R77). -/

namespace Sys2Proof.Machine

/-- The host's next pending action is taken and runs to completion before the one after it. With none pending the block
waits and nothing changes (70_reset_and_hazards.md R271). DESIGN CHOICE: the list as the machine's input (log 1), the
waiting step (log 2). -/
def step (s : State) : Host.Outcome State Fault Refusal :=
  match s.host with
  | [] => .next s
  | act :: rest => hostAct act { s with host := rest }

/-- A command word reaches the block only by a host write to CMD (10_state.md R36, 46_system.md R234): the write of the
word becomes the host's next action. Nothing else changes (log 1). -/
def State.withFetchWord (s : State) (nbits w : Nat) : State :=
  { s with host := .write HostReg.cmd.index (tableWord nbits w) :: s.host }

end Sys2Proof.Machine
end

