-- ==== Sys2Proof/Machine/HostProgram.lean ====
section
/-! DEFINITION. The host-program lines of spec/30_encoding.md rule R99 and the pseudo-instructions of rule R100, as the
host actions they stand for. -/

namespace Sys2Proof.Machine

/-- A line of a host program (R99), pseudo-instructions included (R100). -/
inductive Line where
  | reset
  | wr (r : HostReg) (v : Word)
  | rd (r : HostReg)
  | cmd (i : Instr)
  | colround
  | diaground
  | dround
  | encrypt
  | decrypt
  | ldkey (k : Vector Byte 32)
  | ldnonce (n : Vector Byte 12)
deriving DecidableEq, Repr

/-- `WR CMD, encode(<command>)` (R99). -/
def issueAction (i : Instr) : HostAction := .write HostReg.cmd.index (encode i)

/-- The four commands of a column round (R100, 41_quarter_round.md R143). -/
def colroundCmds : List Instr := [.qr 0 4 8 12, .qr 1 5 9 13, .qr 2 6 10 14, .qr 3 7 11 15]

/-- The four commands of a diagonal round (R100, 41_quarter_round.md R144). -/
def diagroundCmds : List Instr := [.qr 0 5 10 15, .qr 1 6 11 12, .qr 2 7 8 13, .qr 3 4 9 14]

/-- The host actions of a line, first one first (R99, R100). -/
def Line.actions : Line → List HostAction
  | .reset => [.reset]
  | .wr r v => [.write r.index v]
  | .rd r => [.read r.index]
  | .cmd i => [issueAction i]
  | .colround => colroundCmds.map issueAction
  | .diaground => diagroundCmds.map issueAction
  | .dround => (colroundCmds ++ diagroundCmds).map issueAction
  | .encrypt => [issueAction .cipher]
  | .decrypt => [issueAction .cipher]
  | .ldkey k => (List.finRange 8).map (fun j => .write (HostReg.keyw j).index (keyWord k j)) ++ [.write HostReg.keyLen.index 32]
  | .ldnonce n => (List.finRange 3).map fun j => .write (HostReg.noncew j).index (nonceWord n j)

/-- The host actions of a program. -/
def programActions (p : List Line) : List HostAction := p.flatMap Line.actions

end Sys2Proof.Machine
end

