-- ==== Sys2Proof/Safety.lean ====
section
/-! DEFINITION. The terms in which claims about runs are stated: the machine's invariant, what a fault record says, runs
of several commands, and the test oracle for the quarter round (spec/60_exceptions.md, spec/10_state.md R32 to R34,
spec/41_quarter_round.md R141). -/

namespace Sys2Proof.Machine

/-- What STATUS and FCMD hold (10_state.md R32, R33): while FAULT = 0, CAUSE and FCMD are 0; while FAULT = 1, CAUSE is
one of the four codes of 60_exceptions.md R240 (codes 5 to 15 are never produced). -/
def Block.statusOk (b : Block) : Bool :=
  if b.fault then b.cause == 1 || b.cause == 2 || b.cause == 3 || b.cause == 4 else b.cause == 0 && b.fcmd == 0

/-- The machine's invariant: STATUS and FCMD as above, NBLK at most 2^26 (10_state.md R34), and buffer memory in its
canonical form (log 3). -/
def State.Inv (s : State) : Prop :=
  s.block.statusOk = true ∧ s.block.nblk.toNat ≤ 2 ^ 26 ∧ s.mem.wf = true

/-- FCMD and the registers explain the fault that CAUSE names (60_exceptions.md R240 to R244, R246): the recorded word is
one that raises this fault, and the offending KEY_LEN or ROUNDS is still in its register. -/
def Block.faultExplained (b : Block) : Prop :=
  (b.cause = 1 ∧ ∃ p q n, decode b.fcmd = .cmd (.rotl p q n) ∧ (n.toNat = 0 ∨ 32 ≤ n.toNat)) ∨
  (b.cause = 2 ∧ b.keyLen ≠ 32 ∧
    (decode b.fcmd = .cmd .init ∨ decode b.fcmd = .cmd .block ∨ decode b.fcmd = .cmd .cipher)) ∨
  (b.cause = 3 ∧ roundsValid b.rounds = false ∧
    (decode b.fcmd = .cmd .permute ∨ (decode b.fcmd = .cmd .block ∧ b.keyLen = 32) ∨
      (decode b.fcmd = .cmd .cipher ∧ b.keyLen = 32 ∧ b.bufLen ≠ 0))) ∨
  (b.cause = 4 ∧ ∃ why, decode b.fcmd = .illegal why)

/-- A run has gone wrong when the block is in the faulted state (60_exceptions.md R249). -/
def State.faulted (s : State) : Bool := s.block.fault

/-- Commands executed one after another, each from the state the one before it left, as the host issues them
(46_system.md R234). -/
def execAll : List Instr → State → Result
  | [], s => .next s
  | i :: is, s =>
    match exec i s with
    | .next t => execAll is t
    | .fault f => .fault f
    | .refused r => .refused r

/-- A result with a change of its next state. -/
def mapNext (f : State → State) : Result → Result
  | .next t => .next (f t)
  | .fault r => .fault r
  | .refused r => .refused r

/-- The same machine with another KEY_LEN. -/
def State.withKeyLen (s : State) (v : Word) : State := s.withBlock { s.block with keyLen := v }

/-- The same machine with another ROUNDS. -/
def State.withRounds (s : State) (v : Word) : State := s.withBlock { s.block with rounds := v }

/-- The same machine with another CTR. -/
def State.withCtr (s : State) (v : Word) : State := s.withBlock { s.block with ctr := v }

/-- The same machine with another working buffer. -/
def State.withBuffer (s : State) (addr len : Word) : State :=
  s.withBlock { s.block with bufAddr := addr, bufLen := len }

/-- The parameter registers, which only the host writes (10_state.md R20, R26 to R31), hold the same values. -/
def Block.sameParameters (b b' : Block) : Prop :=
  b'.key = b.key ∧ b'.nonce = b.nonce ∧ b'.keyLen = b.keyLen ∧ b'.rounds = b.rounds ∧ b'.ctr = b.ctr ∧
    b'.bufAddr = b.bufAddr ∧ b'.bufLen = b.bufLen

/-- The memory, the platform and the host's side are the same: every byte of memory reads as before. -/
def State.sameOutside (s t : State) : Prop :=
  (∀ a, t.mem.readByte a = s.mem.readByte a) ∧ t.map = s.map ∧ t.host = s.host ∧ t.reads = s.reads

/-- `InvQuarterRound(a, b, c, d)` of 41_quarter_round.md R141: a test oracle only, the hardware has no such operation. -/
def invQuarterRound (a b c d : Word) : Word × Word × Word × Word :=
  let b := rotl32 b ⟨25, by decide⟩ ^^^ c
  let c := c - d
  let d := rotl32 d ⟨24, by decide⟩ ^^^ a
  let a := a - b
  let b := rotl32 b ⟨20, by decide⟩ ^^^ c
  let c := c - d
  let d := rotl32 d ⟨16, by decide⟩ ^^^ a
  let a := a - b
  (a, b, c, d)

end Sys2Proof.Machine
end

