-- ==== Sys2Proof/Certificates/Slice0/Obligations.lean ====
section
/-! DEFINITION. The statements about the model, for the provers. Each docstring names the rule of spec/ it formalises. -/

open Sys2Proof Sys2Proof.Machine

/-! ### Encoding (spec/30_encoding.md) -/

/-- The decoder reads back every well-formed command from its word, every operand included (R91, R98). -/
def Obligations.DecodeOfEncodeIsTheCommand : Prop :=
  ∀ i : Instr, i.wf = true → decode (encode i) = .cmd i

/-- A word that decodes is the encoding of its command, which is well formed: each legal word has one meaning
(R94, R95, R98). -/
def Obligations.EncodeOfDecodeIsTheWord : Prop :=
  ∀ (w : Word) (i : Instr), decode w = .cmd i → i.wf = true ∧ encode i = w

/-- R93: a word is the command of a row exactly when it matches the row's mask and match (for QR, R94 too); no word matches
two rows; an opcode outside the table is illegal. -/
def Obligations.DecodeFollowsTheOpcodeTable : Prop :=
  ∀ w : Word,
    ((∃ a b n, decode w = .cmd (.rotl a b n)) ↔ w &&& 0xFF00FF00 = 0x01000000) ∧
    ((∃ a b c d, decode w = .cmd (.qr a b c d)) ↔
      w &&& 0xFF0000FF = 0x02000000 ∧
        [w.toNat / 2 ^ 20 % 16, w.toNat / 2 ^ 16 % 16, w.toNat / 2 ^ 12 % 16, w.toNat / 2 ^ 8 % 16].Nodup) ∧
    (decode w = .cmd .init ↔ w &&& 0xFFFFFFFF = 0x10000000) ∧
    (decode w = .cmd .copy ↔ w &&& 0xFFFFFFFF = 0x11000000) ∧
    (decode w = .cmd .permute ↔ w &&& 0xFFFFFFFF = 0x12000000) ∧
    (decode w = .cmd .final ↔ w &&& 0xFFFFFFFF = 0x13000000) ∧
    (decode w = .cmd .block ↔ w &&& 0xFFFFFFFF = 0x14000000) ∧
    (decode w = .cmd .cipher ↔ w &&& 0xFFFFFFFF = 0x20000000) ∧
    (decode w = .cmd .wipe ↔ w &&& 0xFFFFFFFF = 0x30000000) ∧
    ((w.toNat / 2 ^ 24 ∉ [0x01, 0x02, 0x10, 0x11, 0x12, 0x13, 0x14, 0x20, 0x30]) →
      ∃ why, decode w = .illegal why) ∧
    [w &&& 0xFF00FF00 = 0x01000000, w &&& 0xFF0000FF = 0x02000000, w = 0x10000000, w = 0x11000000, w = 0x12000000,
      w = 0x13000000, w = 0x14000000, w = 0x20000000, w = 0x30000000].Pairwise fun p q => ¬(p ∧ q)

/-- The operands of ROTL and QR are the bits that R90 and R92 name: a = w[23:20], b = w[19:16], c = w[15:12],
d = w[11:8], imm8 = w[7:0], all unsigned. -/
def Obligations.OperandsAreTheNamedBits : Prop :=
  ∀ w : Word,
    (∀ a b n, decode w = .cmd (.rotl a b n) →
      a.val = w.toNat / 2 ^ 20 % 16 ∧ b.val = w.toNat / 2 ^ 16 % 16 ∧ n.toNat = w.toNat % 256) ∧
    (∀ a b c d, decode w = .cmd (.qr a b c d) →
      a.val = w.toNat / 2 ^ 20 % 16 ∧ b.val = w.toNat / 2 ^ 16 % 16 ∧ c.val = w.toNat / 2 ^ 12 % 16 ∧
        d.val = w.toNat / 2 ^ 8 % 16)

/-- Sanity: words of 95_test_vectors.md V83 and R100, one of each family, decode to the command they stand for. -/
def Obligations.SampleWordsDecode : Prop :=
  decode 0x01100007 = .cmd (.rotl 1 0 7) ∧ decode 0x02012300 = .cmd (.qr 0 1 2 3) ∧
  decode 0x02349E00 = .cmd (.qr 3 4 9 14) ∧ decode 0x10000000 = .cmd .init ∧ decode 0x11000000 = .cmd .copy ∧
  decode 0x12000000 = .cmd .permute ∧ decode 0x13000000 = .cmd .final ∧ decode 0x14000000 = .cmd .block ∧
  decode 0x20000000 = .cmd .cipher ∧ decode 0x30000000 = .cmd .wipe

/-! ### Steps, command issue and the host's actions (spec/46_system.md, spec/20_memory.md) -/

/-- R234: a step whose host action writes a word to CMD runs exec of the decoded command (a fault of that command records
the word), raises E_CMD on an illegal word, and does nothing at all while the block is faulted. What the step adds around
exec is that the action leaves the host's list, the model's own bookkeeping (log 1). -/
def Obligations.StepRunsTheDecodedCommand : Prop :=
  ∀ (s : State) (w : Word) (rest : List HostAction), s.host = .write 0 w :: rest →
    (s.block.fault = false → ∀ i, decode w = .cmd i →
      step s = exec i { s with host := rest } ∧
      ∀ t, step s = .next t → t.block.fault = true → t.block.fcmd = w) ∧
    (s.block.fault = false → ∀ why, decode w = .illegal why →
      step s = .next { s with host := rest, block := { s.block with fault := true, cause := 4, fcmd := w } }) ∧
    (s.block.fault = true → step s = .next { s with host := rest })

/-- R96: a word that matches no row of R93, or matches the QR row with two equal indices (R94), raises E_CMD when it is
issued and changes nothing else; the all-zero and the all-ones word are such words. That the issued action leaves the
host's list is the model's own bookkeeping (log 1). -/
def Obligations.WordsWithoutCommandRaiseECmd : Prop :=
  (∀ (s : State) (w : Word) (rest : List HostAction), s.host = .write 0 w :: rest → s.block.fault = false →
    w &&& 0xFF00FF00 ≠ 0x01000000 →
    (w &&& 0xFF0000FF = 0x02000000 →
      ¬[w.toNat / 2 ^ 20 % 16, w.toNat / 2 ^ 16 % 16, w.toNat / 2 ^ 12 % 16, w.toNat / 2 ^ 8 % 16].Nodup) →
    w ∉ [(0x10000000 : Word), 0x11000000, 0x12000000, 0x13000000, 0x14000000, 0x20000000, 0x30000000] →
    step s = .next { s with host := rest, block := { s.block with fault := true, cause := 4, fcmd := w } }) ∧
  (∀ (s : State) (w : Word) (rest : List HostAction), s.host = .write 0 w :: rest → s.block.fault = false →
    w = 0x00000000 ∨ w = 0xFFFFFFFF →
    step s = .next { s with host := rest, block := { s.block with fault := true, cause := 4, fcmd := w } })

/-- R249: while FAULT = 1 every host write to every offset changes nothing, every host read returns the value held, and
whatever the host does short of a reset leaves the block as it is. -/
def Obligations.FaultedBlockIsFrozen : Prop :=
  ∀ (s : State) (act : HostAction) (rest : List HostAction), s.host = act :: rest → s.block.fault = true →
    (∀ k v, act = .write k v → step s = .next { s with host := rest }) ∧
    (∀ k, act = .read k →
      step s = .next { s with host := rest, reads := s.reads ++ [hostRead k s.block] }) ∧
    (act ≠ .reset → ∀ t, step s = .next t → t.block = s.block)

/-- R250: no command and no register write clears STATUS.FAULT, only reset does; and CAUSE and FCMD keep describing the
first fault. -/
def Obligations.OnlyResetClearsFault : Prop :=
  ∀ s t : State, s.block.fault = true → step s = .next t →
    (t.block.fault = false → ∃ rest, s.host = .reset :: rest) ∧
    (t.block.fault = true → t.block.cause = s.block.cause ∧ t.block.fcmd = s.block.fcmd)

/-- R41: after the reset action, from any state, every item of the block is zero and buffer memory is not touched. -/
def Obligations.ResetActionZeroesTheBlock : Prop :=
  ∀ (s : State) (rest : List HostAction), s.host = .reset :: rest →
    ∃ t, step s = .next t ∧ (∀ i : WIndex, t.block.x[i] = 0 ∧ t.block.w[i] = 0) ∧
      (∀ j : Fin 32, t.block.key[j] = 0) ∧ (∀ j : Fin 12, t.block.nonce[j] = 0) ∧
      t.block.keyLen = 0 ∧ t.block.rounds = 0 ∧ t.block.ctr = 0 ∧ t.block.bufAddr = 0 ∧ t.block.bufLen = 0 ∧
      t.block.fault = false ∧ t.block.cause = 0 ∧ hostRead 1 t.block = 0 ∧ t.block.fcmd = 0 ∧
      t.block.cctr = 0 ∧ t.block.nblk = 0 ∧
      t.mem = s.mem ∧ t.map = s.map ∧ t.host = rest ∧ t.reads = s.reads

/-- R271: right after reset the block is not faulted; INIT, BLOCK and CIPHER fault with E_KEYLEN and PERMUTE with E_ROUNDS;
ROTL with a legal amount, QR, COPY, FINAL and WIPE run and leave the zeros zero. -/
def Obligations.CommandsRightAfterReset : Prop :=
  State.reset.block.fault = false ∧
  (∀ i, i = Instr.init ∨ i = Instr.block ∨ i = Instr.cipher →
    exec i State.reset = .next (State.reset.raise .eKeyLen (encode i))) ∧
  exec .permute State.reset = .next (State.reset.raise .eRounds 0x12000000) ∧
  (∀ a b n, 1 ≤ n.toNat → n.toNat ≤ 31 → exec (.rotl a b n) State.reset = .next State.reset) ∧
  (∀ a b c d, distinctIndices a b c d = true → exec (.qr a b c d) State.reset = .next State.reset) ∧
  (∀ i, i = Instr.copy ∨ i = Instr.final ∨ i = Instr.wipe → exec i State.reset = .next State.reset)

/-- R232: what a host read of each offset returns; a read changes nothing but what the host has been given. -/
def Obligations.HostReadFollowsTheRegisterMap : Prop :=
  (∀ b : Block,
    hostRead 0 b = 0 ∧ (hostRead 1 b).toNat = b.cause.toNat * 256 + b.fault.toNat ∧ hostRead 2 b = b.fcmd ∧
    hostRead 3 b = b.keyLen ∧ hostRead 4 b = b.rounds ∧ hostRead 5 b = b.ctr ∧ hostRead 6 b = b.bufAddr ∧
    hostRead 7 b = b.bufLen ∧ hostRead 8 b = b.cctr ∧ hostRead 9 b = b.nblk ∧
    (∀ (k : Fin 64) (j : Fin 8), k.val = 16 + j.val →
      hostRead k b = pack32le b.key[4 * j.val] b.key[4 * j.val + 1] b.key[4 * j.val + 2] b.key[4 * j.val + 3]) ∧
    (∀ (k : Fin 64) (j : Fin 3), k.val = 24 + j.val →
      hostRead k b =
        pack32le b.nonce[4 * j.val] b.nonce[4 * j.val + 1] b.nonce[4 * j.val + 2] b.nonce[4 * j.val + 3]) ∧
    (∀ (k : Fin 64) (i : WIndex), k.val = 32 + i.val → hostRead k b = b.x[i]) ∧
    (∀ (k : Fin 64) (i : WIndex), k.val = 48 + i.val → hostRead k b = b.w[i]) ∧
    (∀ k : Fin 64, (10 ≤ k.val ∧ k.val ≤ 15) ∨ (27 ≤ k.val ∧ k.val ≤ 31) → hostRead k b = 0)) ∧
  (∀ (s : State) (k : Fin 64) (rest : List HostAction), s.host = .read k :: rest →
    step s = .next { s with host := rest, reads := s.reads ++ [hostRead k s.block] })

/-- R233: what a host write to each offset does, faulted or not. -/
def Obligations.HostWriteFollowsTheRegisterMap : Prop :=
  ∀ (s : State) (k : Fin 64) (v : Word) (rest : List HostAction), s.host = .write k v :: rest →
    (s.block.fault = true → step s = .next { s with host := rest }) ∧
    (s.block.fault = false →
      (k.val = 0 → step s = issue v { s with host := rest }) ∧
      (k.val = 3 → step s = .next { s with host := rest, block := { s.block with keyLen := v } }) ∧
      (k.val = 4 → step s = .next { s with host := rest, block := { s.block with rounds := v } }) ∧
      (k.val = 5 → step s = .next { s with host := rest, block := { s.block with ctr := v } }) ∧
      (k.val = 6 → step s = .next { s with host := rest, block := { s.block with bufAddr := v } }) ∧
      (k.val = 7 → step s = .next { s with host := rest, block := { s.block with bufLen := v } }) ∧
      (16 ≤ k.val → k.val ≤ 23 →
        ∃ key : Vector Byte 32, step s = .next { s with host := rest, block := { s.block with key := key } } ∧
          ∀ i : Fin 32, key[i].toNat =
            if i.val / 4 = k.val - 16 then v.toNat / 2 ^ (8 * (i.val % 4)) % 256 else s.block.key[i].toNat) ∧
      (24 ≤ k.val → k.val ≤ 26 →
        ∃ nonce : Vector Byte 12, step s = .next { s with host := rest, block := { s.block with nonce := nonce } } ∧
          ∀ i : Fin 12, nonce[i].toNat =
            if i.val / 4 = k.val - 24 then v.toNat / 2 ^ (8 * (i.val % 4)) % 256 else s.block.nonce[i].toNat) ∧
      (∀ i : WIndex, k.val = 32 + i.val →
        step s = .next { s with host := rest, block := { s.block with x := s.block.x.set i v } }) ∧
      (∀ i : WIndex, k.val = 48 + i.val →
        step s = .next { s with host := rest, block := { s.block with w := s.block.w.set i v } }) ∧
      (k.val = 1 ∨ k.val = 2 ∨ k.val = 8 ∨ k.val = 9 ∨ (10 ≤ k.val ∧ k.val ≤ 15) ∨ (27 ≤ k.val ∧ k.val ≤ 31) →
        step s = .next { s with host := rest }))

/-- R64: the byte lanes of KEYWj and NONCEWj. The word the host writes is the word it reads back, its bits 7:0 are the
lowest-numbered byte, the other bytes stay, and the state initializer puts that very word in X[4+j] (X[13+j]). -/
def Obligations.KeyAndNonceByteLanes : Prop :=
  (∀ (key : Vector Byte 32) (nonce : Vector Byte 12) (ctr : Word) (j : Fin 8) (v : Word),
    (∀ k : Fin 4, (setKeyWord key j v)[4 * j.val + k.val].toNat = v.toNat / 2 ^ (8 * k.val) % 256) ∧
    (∀ i : Fin 32, i.val / 4 ≠ j.val → (setKeyWord key j v)[i] = key[i]) ∧
    keyWord (setKeyWord key j v) j = v ∧
    (initWords (setKeyWord key j v) nonce ctr)[4 + j.val] = v) ∧
  (∀ (key : Vector Byte 32) (nonce : Vector Byte 12) (ctr : Word) (j : Fin 3) (v : Word),
    (∀ k : Fin 4, (setNonceWord nonce j v)[4 * j.val + k.val].toNat = v.toNat / 2 ^ (8 * k.val) % 256) ∧
    (∀ i : Fin 12, i.val / 4 ≠ j.val → (setNonceWord nonce j v)[i] = nonce[i]) ∧
    nonceWord (setNonceWord nonce j v) j = v ∧
    (initWords key (setNonceWord nonce j v) ctr)[13 + j.val] = v)

/-- R63: reserved offsets and CMD read as 0; a write to a reserved offset or to a read-only register changes nothing and
is not a fault. -/
def Obligations.ReservedAndReadOnlyOffsets : Prop :=
  (∀ (k : Fin 64) (b : Block), k.val = 0 ∨ (10 ≤ k.val ∧ k.val ≤ 15) ∨ (27 ≤ k.val ∧ k.val ≤ 31) →
    hostRead k b = 0) ∧
  (∀ (k : Fin 64) (v : Word) (s : State),
    k.val = 1 ∨ k.val = 2 ∨ k.val = 8 ∨ k.val = 9 ∨ (10 ≤ k.val ∧ k.val ≤ 15) ∨ (27 ≤ k.val ∧ k.val ≤ 31) →
    hostWrite k v s = .next s)

/-- R32: the fields of STATUS, and the only five values it ever reads, in every state whose status registers meet the
invariant that every step keeps. -/
def Obligations.StatusFieldsAndValues : Prop :=
  ∀ b : Block,
    (hostRead 1 b).getLsbD 0 = b.fault ∧ (hostRead 1 b).extractLsb' 1 7 = 0 ∧
    (hostRead 1 b).extractLsb' 8 4 = b.cause ∧ (hostRead 1 b).extractLsb' 12 20 = 0 ∧
    (b.statusOk = true →
      hostRead 1 b = 0x00000000 ∨ hostRead 1 b = 0x00000101 ∨ hostRead 1 b = 0x00000201 ∨
        hostRead 1 b = 0x00000301 ∨ hostRead 1 b = 0x00000401)

/-- The model's choice of log 6 (R65, R77): what the host stores to an admitted buffer address, it loads back, and nothing
else changes. -/
def Obligations.HostStoreThenLoadReturnsTheByte : Prop :=
  ∀ (s : State) (a : Addr) (v : Byte) (rest : List HostAction), admits s.map a = true →
    s.host = .store a v :: .load a :: rest →
    ∃ t, Sys2Proof.core.run 2 s = .next t ∧ t.reads = s.reads ++ [v.setWidth 32] ∧ t.block = s.block ∧
      t.map = s.map ∧ t.host = rest ∧ t.mem.readByte a = v ∧ ∀ a', a' ≠ a → t.mem.readByte a' = s.mem.readByte a'

/-- The model's choice of log 2 (R271): with no host action pending the block waits, and nothing changes. -/
def Obligations.IdleBlockWaits : Prop :=
  ∀ s : State, s.host = [] → step s = .next s

/-! ### Rotation, packing and the ROTL command (spec/40_rotate_pack.md) -/

/-- R129: ROTL writes W[a] with the rotated W[b] and nothing else when 1 <= imm8 <= 31, source and destination equal
included; for imm8 = 0 or imm8 >= 32 it raises E_ROT, writing only the fault registers, with its word in FCMD. -/
def Obligations.RotlRotatesOrFaults : Prop :=
  ∀ (a b : WIndex) (imm8 : Byte) (s : State),
    (1 ≤ imm8.toNat → imm8.toNat ≤ 31 →
      ∃ r : Word, exec (.rotl a b imm8) s = .next { s with block := { s.block with w := s.block.w.set a r } } ∧
        r.toNat = s.block.w[b].toNat * 2 ^ imm8.toNat % 2 ^ 32 + s.block.w[b].toNat / 2 ^ (32 - imm8.toNat)) ∧
    (imm8.toNat = 0 ∨ 32 ≤ imm8.toNat →
      exec (.rotl a b imm8) s = .next { s with block := { s.block with
        fault := true, cause := 1,
        fcmd := BitVec.ofNat 32 (2 ^ 24 + a.val * 2 ^ 20 + b.val * 2 ^ 16 + imm8.toNat) } })

/-- R120: bit j of rotl32(x, n) is bit (j - n) mod 32 of x, for 1 <= n <= 31. -/
def Obligations.RotationMovesBits : Prop :=
  ∀ (x : Word) (n : RotAmount) (j : Nat), j < 32 →
    rotl32 x n = (x <<< n.val) ||| (x >>> (32 - n.val)) ∧
    (rotl32 x n).getLsbD j = x.getLsbD ((j + 32 - n.val) % 32)

/-- R122: the six laws of rotl32. -/
def Obligations.RotationLaws : Prop :=
  (∀ x : Word, (rotl32 x ⟨1, by decide⟩).getLsbD 0 = x.getLsbD 31 ∧
    ∀ j, j < 31 → (rotl32 x ⟨1, by decide⟩).getLsbD (j + 1) = x.getLsbD j) ∧
  (∀ (x : Word) (n : RotAmount), rotl32 x n = (fun y => rotl32 y ⟨1, by decide⟩)^[n.val] x) ∧
  (∀ (x : Word) (m n k : RotAmount), k.val = m.val + n.val → rotl32 (rotl32 x m) n = rotl32 x k) ∧
  (∀ (x : Word) (n m : RotAmount), m.val = 32 - n.val → rotl32 (rotl32 x n) m = x) ∧
  (∀ n : RotAmount, rotl32 0 n = 0 ∧ rotl32 0xFFFFFFFF n = 0xFFFFFFFF) ∧
  (∀ (x y : Word) (n : RotAmount), rotl32 (x ^^^ y) n = rotl32 x n ^^^ rotl32 y n)

/-- R128: packing and unpacking are inverse, so the keystream view determines X. -/
def Obligations.PackAndUnpackAreInverse : Prop :=
  (∀ b0 b1 b2 b3 : Byte, unpack32le (pack32le b0 b1 b2 b3) = (b0, b1, b2, b3)) ∧
  (∀ w : Word, pack32le (unpack32le w).1 (unpack32le w).2.1 (unpack32le w).2.2.1 (unpack32le w).2.2.2 = w) ∧
  (∀ x y : Words, (∀ j, keystreamByte x j = keystreamByte y j) ↔ x = y)

/-- R124 and R126 as numbers: pack32le puts b0 in bits 7:0 and so on; bswap32 reverses the bytes and undoes itself. -/
def Obligations.PackingAndByteSwapValues : Prop :=
  (∀ b0 b1 b2 b3 : Byte,
    (pack32le b0 b1 b2 b3).toNat = b0.toNat + b1.toNat * 2 ^ 8 + b2.toNat * 2 ^ 16 + b3.toNat * 2 ^ 24) ∧
  (∀ b0 b1 b2 b3 : Byte, bswap32 (pack32le b0 b1 b2 b3) = pack32le b3 b2 b1 b0) ∧
  (∀ w : Word, bswap32 (bswap32 w) = w)

/-! ### The quarter round and the QR command (spec/41_quarter_round.md) -/

/-- R142 with R140: QR on four distinct indices completes with the twelve assignments carried out on its four words; the
other twelve words of W, X, every register, flag and byte of memory stay. -/
def Obligations.QrIsTheQuarterRound : Prop :=
  ∀ (a b c d : WIndex) (s : State), [a, b, c, d].Nodup →
    ∃ w' : Words, exec (.qr a b c d) s = .next { s with block := { s.block with w := w' } } ∧
      (∀ i : WIndex, i ∉ [a, b, c, d] → w'[i] = s.block.w[i]) ∧
      (let a1 := s.block.w[a] + s.block.w[b]
       let d1 := (s.block.w[d] ^^^ a1).rotateLeft 16
       let c1 := s.block.w[c] + d1
       let b1 := (s.block.w[b] ^^^ c1).rotateLeft 12
       let a2 := a1 + b1
       let d2 := (d1 ^^^ a2).rotateLeft 8
       let c2 := c1 + d2
       let b2 := (b1 ^^^ c2).rotateLeft 7
       w'[a] = a2 ∧ w'[b] = b2 ∧ w'[c] = c2 ∧ w'[d] = d2)

/-- R141 (b) and (c): the quarter round is a bijection on quadruples with the stated inverse, and fixes the zero
quadruple. -/
def Obligations.QuarterRoundIsABijection : Prop :=
  (∀ a b c d : Word,
    (let r := quarterRound a b c d; invQuarterRound r.1 r.2.1 r.2.2.1 r.2.2.2) = (a, b, c, d)) ∧
  (∀ a b c d : Word,
    (let r := invQuarterRound a b c d; quarterRound r.1 r.2.1 r.2.2.1 r.2.2.2) = (a, b, c, d)) ∧
  quarterRound 0 0 0 0 = (0, 0, 0, 0)

/-- R94: a QR word in which two indices are equal raises E_CMD when it is issued, with nothing else written; and (the
model's reading, log 9) exec of such a term does the same. -/
def Obligations.QrWithEqualIndicesRaisesECmd : Prop :=
  ∀ (a b c d : WIndex) (s : State) (rest : List HostAction), ¬[a, b, c, d].Nodup →
    exec (.qr a b c d) s =
      .next { s with block := { s.block with fault := true, cause := 4, fcmd := encode (.qr a b c d) } } ∧
    (s.host = .write 0 (encode (.qr a b c d)) :: rest → s.block.fault = false →
      step s = .next { s with host := rest, block := { s.block with
        fault := true, cause := 4, fcmd := encode (.qr a b c d) } })

/-- R146: within a column round, and within a diagonal round, the order of the four quarter rounds does not matter. -/
def Obligations.RoundOrderIsImmaterial : Prop :=
  (∀ (cmds : List Instr) (s : State), cmds.Perm colroundCmds → execAll cmds s = execAll colroundCmds s) ∧
  (∀ (cmds : List Instr) (s : State), cmds.Perm diagroundCmds → execAll cmds s = execAll diagroundCmds s)

/-! ### The state initializer, INIT and COPY (spec/42_state_initializer.md) -/

/-- R165 with R160 to R164: INIT with KEY_LEN = 32 completes with X filled from the constants, the key, CTR and the nonce,
and nothing else changed; with another KEY_LEN it raises E_KEYLEN and writes nothing else. -/
def Obligations.InitFillsTheMatrix : Prop :=
  ∀ s : State,
    (s.block.keyLen = 32 →
      ∃ x' : Words, exec .init s = .next { s with block := { s.block with x := x' } } ∧
        x'[0] = 0x61707865 ∧ x'[1] = 0x3320646E ∧ x'[2] = 0x79622D32 ∧ x'[3] = 0x6B206574 ∧
        (∀ j : Fin 8, x'[4 + j.val].toNat =
          s.block.key[4 * j.val].toNat + s.block.key[4 * j.val + 1].toNat * 2 ^ 8 +
            s.block.key[4 * j.val + 2].toNat * 2 ^ 16 + s.block.key[4 * j.val + 3].toNat * 2 ^ 24) ∧
        x'[12] = s.block.ctr ∧
        (∀ j : Fin 3, x'[13 + j.val].toNat =
          s.block.nonce[4 * j.val].toNat + s.block.nonce[4 * j.val + 1].toNat * 2 ^ 8 +
            s.block.nonce[4 * j.val + 2].toNat * 2 ^ 16 + s.block.nonce[4 * j.val + 3].toNat * 2 ^ 24)) ∧
    (s.block.keyLen ≠ 32 →
      exec .init s = .next { s with block := { s.block with fault := true, cause := 2, fcmd := 0x10000000 } })

/-- R167: the word 0x11000000 is COPY, and COPY completes in every state: W becomes X and nothing else changes. -/
def Obligations.CopyCopiesXToW : Prop :=
  decode 0x11000000 = .cmd .copy ∧
  ∀ s : State, exec .copy s = .next { s with block := { s.block with w := s.block.x } }

/-! ### The permutation and PERMUTE (spec/43_permutation.md) -/

/-- R180: RoundsValid(r) holds exactly when r, read as two's complement, is positive and even; as bits: bit 31 and bit 0
are 0 and r is not 0. -/
def Obligations.RoundsValidIsPositiveAndEven : Prop :=
  ∀ r : Word, (roundsValid r = true ↔ 0 < r.toInt ∧ r.toInt % 2 = 0) ∧
    (roundsValid r = true ↔ r.getLsbD 31 = false ∧ r.getLsbD 0 = false ∧ r ≠ 0)

/-- R183 with R181: PERMUTE with a valid ROUNDS completes with W the result of ROUNDS / 2 double rounds, each a column round
and then a diagonal round, and nothing else changed; with an invalid ROUNDS it raises E_ROUNDS and writes nothing else,
whatever KEY_LEN is. -/
def Obligations.PermuteRunsHalfTheRoundCount : Prop :=
  ∀ s : State,
    (roundsValid s.block.rounds = true →
      exec .permute s = .next { s with block := { s.block with
        w := (fun w : Words =>
          qrWords 3 4 9 14 (qrWords 2 7 8 13 (qrWords 1 6 11 12 (qrWords 0 5 10 15
            (qrWords 3 7 11 15 (qrWords 2 6 10 14 (qrWords 1 5 9 13 (qrWords 0 4 8 12 w))))))))^[
          s.block.rounds.toNat / 2] s.block.w } }) ∧
    (roundsValid s.block.rounds = false →
      exec .permute s = .next { s with block := { s.block with fault := true, cause := 3, fcmd := 0x12000000 } })

/-- R184: a host that issues DROUND n times changes W exactly as PERMUTE does with ROUNDS = 2n, and the host-issued form
checks nothing about ROUNDS. -/
def Obligations.PermuteEqualsIssuedDoubleRounds : Prop :=
  ∀ (s : State) (n : Nat), 0 < n → 2 * n < 2 ^ 31 →
    ∃ w' : Words,
      execAll (List.replicate n (colroundCmds ++ diagroundCmds)).flatten s =
        .next { s with block := { s.block with w := w' } } ∧
      exec .permute (s.withRounds (BitVec.ofNat 32 (2 * n))) =
        .next ((s.withRounds (BitVec.ofNat 32 (2 * n))).withBlock
          { s.block with rounds := BitVec.ofNat 32 (2 * n), w := w' })

/-- R182 (b), (c), (d): the permutation is a bijection on W, keeps an all-zero W, and counts add up. -/
def Obligations.PermutationLaws : Prop :=
  (∀ n, Function.Bijective (doubleRounds n)) ∧
  (∀ n, doubleRounds n (Vector.replicate 16 0) = Vector.replicate 16 0) ∧
  (∀ (r1 r2 r3 : Word) (b : Block), roundsValid r1 = true → roundsValid r2 = true → roundsValid r3 = true →
    r3.toNat = r1.toNat + r2.toNat → permuteW r2 (permuteW r1 b) = permuteW r3 b)

/-! ### The finalizer and the block builder, FINAL and BLOCK (spec/44_finalizer_block.md) -/

/-- R190: FINAL completes in every state: each X[i] becomes X[i] + W[i] modulo 2^32, and nothing else changes. -/
def Obligations.FinalAddsWordByWord : Prop :=
  ∀ s : State, ∃ x' : Words, exec .final s = .next { s with block := { s.block with x := x' } } ∧
    ∀ i : WIndex, x'[i].toNat = (s.block.x[i].toNat + s.block.w[i].toNat) % 2 ^ 32

/-- R38 and R192: keystream byte j is (X[j div 4] >> (8 * (j mod 4))) & 0xFF, and bytes 4i to 4i+3 are unpack32le(X[i]). -/
def Obligations.KeystreamIsTheByteViewOfX : Prop :=
  ∀ x : Words,
    (∀ j : Fin 64, (keystreamByte x j).toNat = x[j.val / 4].toNat / 2 ^ (8 * (j.val % 4)) % 256) ∧
    (∀ i : WIndex, unpack32le x[i] =
      (keystreamByte x ⟨4 * i.val, by omega⟩, keystreamByte x ⟨4 * i.val + 1, by omega⟩,
        keystreamByte x ⟨4 * i.val + 2, by omega⟩, keystreamByte x ⟨4 * i.val + 3, by omega⟩))

/-- R193 and R194 (b): BLOCK with KEY_LEN = 32 and a valid ROUNDS completes with W[i] = P[i] and X[i] = I[i] + P[i], where I
is the matrix INIT leaves and P is I after the rounds; CTR, CCTR, NBLK, memory and all else stay (R195). -/
def Obligations.BlockBuildsTheKeystreamBlock : Prop :=
  ∀ s : State, s.block.keyLen = 32 → roundsValid s.block.rounds = true →
    ∃ (x' w' : Words) (u : State), exec .block s = .next { s with block := { s.block with x := x', w := w' } } ∧
      exec .init s = .next u ∧ w' = doubleRound^[s.block.rounds.toNat / 2] u.block.x ∧
      ∀ i : WIndex, x'[i] = u.block.x[i] + w'[i]

/-- R196: BLOCK equals INIT, COPY, PERMUTE, FINAL issued in that order when none of them faults; with KEY_LEN = 32 and a bad
ROUNDS, BLOCK writes only the fault registers while the four commands have already run INIT and COPY when PERMUTE faults;
with a bad KEY_LEN BLOCK raises E_KEYLEN. -/
def Obligations.BlockEqualsTheStageCommands : Prop :=
  ∀ s : State,
    (s.block.keyLen = 32 → roundsValid s.block.rounds = true →
      exec .block s = execAll [.init, .copy, .permute, .final] s) ∧
    (s.block.keyLen = 32 → roundsValid s.block.rounds = false →
      exec .block s = .next { s with block := { s.block with fault := true, cause := 3, fcmd := 0x14000000 } } ∧
      ∃ x' : Words, exec .init s = .next { s with block := { s.block with x := x' } } ∧
        execAll [.init, .copy, .permute] s = .next { s with block := { s.block with
          x := x', w := x', fault := true, cause := 3, fcmd := 0x12000000 } }) ∧
    (s.block.keyLen ≠ 32 →
      exec .block s = .next { s with block := { s.block with fault := true, cause := 2, fcmd := 0x14000000 } })

/-- R194 (a): the block built is a function of KEY, NONCE, CTR and ROUNDS alone; the earlier contents of X and W have no
effect on it (R193). -/
def Obligations.BlockForgetsOldXAndW : Prop :=
  ∀ s t s' t' : State, s.block.key = t.block.key → s.block.nonce = t.block.nonce → s.block.ctr = t.block.ctr →
    s.block.rounds = t.block.rounds → s.block.keyLen = 32 → t.block.keyLen = 32 →
    roundsValid s.block.rounds = true → exec .block s = .next s' → exec .block t = .next t' →
    s'.block.x = t'.block.x ∧ s'.block.w = t'.block.w

/-! ### The keystream cipher and CIPHER (spec/45_keystream_cipher.md) -/

/-- R210 to R214: CIPHER with KEY_LEN = 32, a valid ROUNDS if BUF_LEN > 0, and every address of the working buffer admitted
completes. Byte i of the buffer becomes its old value exclusive-ored with byte i mod 64 of the block that BLOCK builds for
the counter CTR + i div 64; no other byte changes; NBLK = ceil(N / 64) and CCTR = CTR + NBLK modulo 2^32; X and W are
those of the last block built, or unchanged when N = 0; nothing else changes. -/
def Obligations.CipherXorsTheKeystream : Prop :=
  ∀ s : State, s.block.keyLen = 32 → (s.block.bufLen ≠ 0 → roundsValid s.block.rounds = true) →
    (∀ i, i < s.block.bufLen.toNat → admits s.map (s.block.bufAddr + BitVec.ofNat 32 i) = true) →
    ∃ t : State, exec .cipher s = .next t ∧
      (∀ i, i < s.block.bufLen.toNat → ∀ u,
        exec .block (s.withCtr (s.block.ctr + BitVec.ofNat 32 (i / 64))) = .next u →
        t.mem.readByte (s.block.bufAddr + BitVec.ofNat 32 i) =
          s.mem.readByte (s.block.bufAddr + BitVec.ofNat 32 i) ^^^
            keystreamByte u.block.x ⟨i % 64, Nat.mod_lt _ (by decide)⟩) ∧
      (∀ a, (∀ i, i < s.block.bufLen.toNat → a ≠ s.block.bufAddr + BitVec.ofNat 32 i) →
        t.mem.readByte a = s.mem.readByte a) ∧
      t.block.nblk.toNat = (s.block.bufLen.toNat + 63) / 64 ∧ t.block.cctr = s.block.ctr + t.block.nblk ∧
      (s.block.bufLen = 0 → t.block.x = s.block.x ∧ t.block.w = s.block.w) ∧
      (s.block.bufLen ≠ 0 → ∀ u, exec .block (s.withCtr (t.block.cctr - 1)) = .next u →
        t.block.x = u.block.x ∧ t.block.w = u.block.w) ∧
      t.block = { s.block with
        x := t.block.x, w := t.block.w, cctr := t.block.cctr, nblk := t.block.nblk } ∧
      t.map = s.map ∧ t.host = s.host ∧ t.reads = s.reads

/-- R215: CIPHER over an empty buffer builds no block and makes no access: with KEY_LEN = 32 it completes with CCTR = CTR and
NBLK = 0, whatever ROUNDS is; with another KEY_LEN it raises E_KEYLEN. -/
def Obligations.CipherOfAnEmptyBuffer : Prop :=
  ∀ s : State, s.block.bufLen = 0 →
    (s.block.keyLen = 32 →
      exec .cipher s = .next { s with block := { s.block with cctr := s.block.ctr, nblk := 0 } }) ∧
    (s.block.keyLen ≠ 32 →
      exec .cipher s = .next { s with block := { s.block with fault := true, cause := 2, fcmd := 0x20000000 } })

/-- R72: where CIPHER stops. With its preconditions met and some address of the working buffer not admitted there is no step;
a CIPHER that faults needs no admission. -/
def Obligations.CipherWithoutAdmissionHasNoStep : Prop :=
  ∀ s : State,
    (∀ i, s.block.keyLen = 32 → roundsValid s.block.rounds = true → i < s.block.bufLen.toNat →
      admits s.map (s.block.bufAddr + BitVec.ofNat 32 i) = false →
      exec .cipher s = .fault .bufferAddressNotAdmitted) ∧
    (s.block.keyLen ≠ 32 →
      exec .cipher s = .next { s with block := { s.block with fault := true, cause := 2, fcmd := 0x20000000 } }) ∧
    (s.block.keyLen = 32 → s.block.bufLen ≠ 0 → roundsValid s.block.rounds = false →
      exec .cipher s = .next { s with block := { s.block with fault := true, cause := 3, fcmd := 0x20000000 } })

/-- The frame of CIPHER (R71, R210): whatever next state it gives, a byte outside the addresses it stores to reads as before,
the parameter registers, the map and the host's side stay, and FAULT, CAUSE and FCMD stay unless it faults. -/
def Obligations.CipherFrame : Prop :=
  ∀ s t : State, exec .cipher s = .next t →
    (∀ a, (∀ i, i < s.block.bufLen.toNat → a ≠ bufferAddr s.block i) → t.mem.readByte a = s.mem.readByte a) ∧
    s.block.sameParameters t.block ∧ t.map = s.map ∧ t.host = s.host ∧ t.reads = s.reads ∧
    ((t.block.fault = s.block.fault ∧ t.block.cause = s.block.cause ∧ t.block.fcmd = s.block.fcmd) ∨
      (t.mem = s.mem ∧ t.block = { s.block with
        fault := true, cause := t.block.cause, fcmd := 0x20000000 }))

/-- R216: if CIPHER completes without fault, a second CIPHER with the same parameters completes and restores buffer memory:
every byte reads as before the first and the block is as after the first. The clause on a memory in canonical form, which
is then the same list, is about the model's own representation (log 3), not the spec's. -/
def Obligations.CipherTwiceRestoresMemory : Prop :=
  ∀ s t : State, exec .cipher s = .next t → t.block.fault = false →
    ∃ u : State, exec .cipher t = .next u ∧ (∀ a, u.mem.readByte a = s.mem.readByte a) ∧
      (s.mem.wf = true → u.mem = s.mem) ∧ u.block = t.block

/-- R219: two CIPHER commands over adjacent buffers, the first a multiple of 64 bytes long and the second started at the CCTR
the first left, do what one command over both buffers does: the same memory, counter, X and W. -/
def Obligations.CipherContinuesAStream : Prop :=
  ∀ (s t u : State) (m n : Nat), m % 64 = 0 → m + n < 2 ^ 32 → s.block.fault = false →
    s.block.bufLen = BitVec.ofNat 32 (m + n) → exec .cipher s = .next u → u.block.fault = false →
    exec .cipher (s.withBuffer s.block.bufAddr (BitVec.ofNat 32 m)) = .next t →
    ∃ v : State,
      exec .cipher ((t.withCtr t.block.cctr).withBuffer (s.block.bufAddr + BitVec.ofNat 32 m) (BitVec.ofNat 32 n)) =
        .next v ∧
      v.block.fault = false ∧ v.mem = u.mem ∧ v.block.cctr = u.block.cctr ∧ v.block.x = u.block.x ∧
      v.block.w = u.block.w

/-- R220: random access. A CIPHER over the one chunk that starts at byte 64q, with the counter C + q, gives the bytes of that
chunk the values the CIPHER over the whole message gives them. -/
def Obligations.CipherRandomAccess : Prop :=
  ∀ (s t u : State) (q n : Nat), s.block.fault = false → n ≤ 64 → 64 * q + n ≤ s.block.bufLen.toNat →
    exec .cipher s = .next t → t.block.fault = false →
    exec .cipher ((s.withCtr (s.block.ctr + BitVec.ofNat 32 q)).withBuffer
      (s.block.bufAddr + BitVec.ofNat 32 (64 * q)) (BitVec.ofNat 32 n)) = .next u →
    ∀ i, i < n →
      u.mem.readByte (s.block.bufAddr + BitVec.ofNat 32 (64 * q + i)) =
        t.mem.readByte (s.block.bufAddr + BitVec.ofNat 32 (64 * q + i))

/-- R73: the address of byte i is (BUF_ADDR + i) mod 2^32, and the addresses of one command are pairwise distinct. -/
def Obligations.BufferAddressesWrapAndAreDistinct : Prop :=
  ∀ b : Block,
    (∀ i, i < b.bufLen.toNat → (bufferAddr b i).toNat = (b.bufAddr.toNat + i) % 2 ^ 32) ∧
    (∀ i j, i < b.bufLen.toNat → j < b.bufLen.toNat → bufferAddr b i = bufferAddr b j → i = j)

/-! ### WIPE (spec/46_system.md) -/

/-- R230: the word 0x30000000 is WIPE, and WIPE completes in every state: every word of X and W is 0 and nothing else
changes; a host that issues it to a faulted block changes nothing. -/
def Obligations.WipeZeroesXAndW : Prop :=
  decode 0x30000000 = .cmd .wipe ∧
  (∀ (s : State) (rest : List HostAction), s.host = .write 0 0x30000000 :: rest → s.block.fault = true →
    step s = .next { s with host := rest }) ∧
  ∀ s : State, ∃ x' w' : Words, exec .wipe s = .next { s with block := { s.block with x := x', w := w' } } ∧
    ∀ i : WIndex, x'[i] = 0 ∧ w'[i] = 0

/-! ### Faults (spec/60_exceptions.md) -/

/-- R242: INIT, BLOCK and CIPHER raise E_KEYLEN exactly as their first test, whenever KEY_LEN is not 32; the other commands do
not read KEY_LEN. -/
def Obligations.KeyLengthFault : Prop :=
  (∀ (i : Instr) (s : State), i = .init ∨ i = .block ∨ i = .cipher → s.block.keyLen ≠ 32 →
    exec i s = .next { s with block := { s.block with fault := true, cause := 2, fcmd := encode i } }) ∧
  (∀ (i : Instr) (s : State) (v : Word), i ≠ .init → i ≠ .block → i ≠ .cipher →
    exec i (s.withKeyLen v) = mapNext (fun t => t.withKeyLen v) (exec i s))

/-- R243: PERMUTE, BLOCK and, with BUF_LEN > 0, CIPHER raise E_ROUNDS when ROUNDS is not valid (BLOCK and CIPHER after the test
on KEY_LEN); the other commands do not read ROUNDS. -/
def Obligations.RoundCountFault : Prop :=
  (∀ (i : Instr) (s : State), roundsValid s.block.rounds = false →
    i = .permute ∨ (i = .block ∧ s.block.keyLen = 32) ∨
      (i = .cipher ∧ s.block.keyLen = 32 ∧ s.block.bufLen ≠ 0) →
    exec i s = .next { s with block := { s.block with fault := true, cause := 3, fcmd := encode i } }) ∧
  (∀ (i : Instr) (s : State) (v : Word), i ≠ .permute → i ≠ .block → i ≠ .cipher →
    exec i (s.withRounds v) = mapNext (fun t => t.withRounds v) (exec i s))

/-- R246: of several fault conditions one command reports the first in the order E_CMD, E_ROT, E_KEYLEN, E_ROUNDS. E_CMD comes
before E_ROT: a ROTL word with c or d not 0 reports E_CMD, whatever its amount. E_CMD comes before E_KEYLEN and E_ROUNDS:
an INIT, PERMUTE, BLOCK or CIPHER word with a reserved bit set reports E_CMD, whatever KEY_LEN and ROUNDS are. E_KEYLEN
comes before E_ROUNDS: BLOCK and CIPHER with a wrong KEY_LEN and a bad ROUNDS report E_KEYLEN. ROTL has no other
precondition than its amount, so no command can meet E_ROT together with E_KEYLEN or E_ROUNDS: the last clause says that
a ROTL with a bad amount reports E_ROT whatever KEY_LEN and ROUNDS are. -/
def Obligations.FaultPriority : Prop :=
  (∀ (s : State) (w : Word) (rest : List HostAction), s.host = .write 0 w :: rest → s.block.fault = false →
    w.toNat / 2 ^ 24 = 0x01 → w.toNat / 2 ^ 8 % 2 ^ 8 ≠ 0 →
    step s = .next { s with host := rest, block := { s.block with fault := true, cause := 4, fcmd := w } }) ∧
  (∀ (s : State) (w : Word) (rest : List HostAction), s.host = .write 0 w :: rest → s.block.fault = false →
    w.toNat / 2 ^ 24 = 0x10 ∨ w.toNat / 2 ^ 24 = 0x12 ∨ w.toNat / 2 ^ 24 = 0x14 ∨ w.toNat / 2 ^ 24 = 0x20 →
    w.toNat % 2 ^ 24 ≠ 0 →
    step s = .next { s with host := rest, block := { s.block with fault := true, cause := 4, fcmd := w } }) ∧
  (∀ (s : State) (i : Instr), i = .block ∨ i = .cipher → s.block.keyLen ≠ 32 →
    roundsValid s.block.rounds = false →
    exec i s = .next { s with block := { s.block with fault := true, cause := 2, fcmd := encode i } }) ∧
  (∀ (s : State) (a b : WIndex) (imm8 : Byte), imm8.toNat = 0 ∨ 32 ≤ imm8.toNat →
    s.block.keyLen ≠ 32 ∨ roundsValid s.block.rounds = false →
    exec (.rotl a b imm8) s =
      .next { s with block := { s.block with fault := true, cause := 1, fcmd := encode (.rotl a b imm8) } })

/-- R247 and R248: faults are precise. A command that takes an unfaulted block to a faulted one has written FAULT, CAUSE and
FCMD and nothing else; STATUS then reads code << 8 | 1 and FCMD is the command's word. A command that does not fault
leaves the three as they were. -/
def Obligations.FaultsArePrecise : Prop :=
  ∀ (i : Instr) (s t : State), exec i s = .next t → s.block.fault = false →
    (t.block.fault = true →
      ∃ code : BitVec 4, t = { s with block := { s.block with fault := true, cause := code, fcmd := encode i } } ∧
        (hostRead 1 t.block).toNat = code.toNat * 256 + 1 ∧ (code = 1 ∨ code = 2 ∨ code = 3 ∨ code = 4)) ∧
    (t.block.fault = false → t.block.cause = s.block.cause ∧ t.block.fcmd = s.block.fcmd)

/-- R240 to R244: FCMD and the registers explain the fault that CAUSE names, in every state: a step from a state where they do
(or that is not faulted) gives such a state. -/
def Obligations.StepKeepsTheFaultExplained : Prop :=
  ∀ s t : State, (s.block.fault = true → s.block.faultExplained) → step s = .next t →
    (t.block.fault = true → t.block.faultExplained)

/-! ### The whole machine -/

/-- Every step keeps the invariant: STATUS and FCMD are as R32 and R33 say, NBLK is at most 2^26 (R34), and buffer memory is in
its canonical form (the model's representation, log 3). -/
def Obligations.StepKeepsTheInvariant : Prop :=
  ∀ s t : State, s.Inv → step s = .next t → t.Inv

/-- The invariant holds right after reset, where every item of the block is zero (R41). The last clause is the model's
choice of log 3, not the spec's: no byte of buffer memory is listed, and each reads 0x00. -/
def Obligations.ResetMeetsTheInvariant : Prop :=
  State.reset.Inv ∧ (∀ i : WIndex, State.reset.block.x[i] = 0 ∧ State.reset.block.w[i] = 0) ∧
    (∀ j : Fin 32, State.reset.block.key[j] = 0) ∧ (∀ j : Fin 12, State.reset.block.nonce[j] = 0) ∧
    State.reset.block.keyLen = 0 ∧ State.reset.block.rounds = 0 ∧ State.reset.block.ctr = 0 ∧
    State.reset.block.bufAddr = 0 ∧ State.reset.block.bufLen = 0 ∧ State.reset.block.fault = false ∧
    State.reset.block.cause = 0 ∧ State.reset.block.fcmd = 0 ∧ State.reset.block.cctr = 0 ∧
    State.reset.block.nblk = 0 ∧ (∀ a, State.reset.mem.readByte a = 0x00)

/-- R20, R24, R26 to R31: no command writes a parameter register; none changes the platform's map or the host's side. -/
def Obligations.NoCommandWritesAParameter : Prop :=
  ∀ (i : Instr) (s t : State), exec i s = .next t →
    s.block.sameParameters t.block ∧ t.map = s.map ∧ t.host = s.host ∧ t.reads = s.reads

/-- R66 and R34: only CIPHER changes buffer memory, CCTR and NBLK: after any other command every byte reads as before. -/
def Obligations.OnlyCipherTouchesMemoryAndCounters : Prop :=
  ∀ (i : Instr) (s t : State), i ≠ .cipher → exec i s = .next t →
    t.mem = s.mem ∧ (∀ a, t.mem.readByte a = s.mem.readByte a) ∧ t.block.cctr = s.block.cctr ∧
      t.block.nblk = s.block.nblk

/-- The frame of the word files (the table of R24): ROTL writes only W[a] and QR only its four words of W; COPY and PERMUTE
leave X alone; INIT and FINAL leave W alone; in all these forms every byte of memory reads as before. -/
def Obligations.WordFileFrames : Prop :=
  ∀ (s t : State),
    (∀ a b n, exec (.rotl a b n) s = .next t →
      t.block.x = s.block.x ∧ (∀ k : WIndex, k ≠ a → t.block.w[k] = s.block.w[k]) ∧ s.sameOutside t) ∧
    (∀ a b c d, exec (.qr a b c d) s = .next t →
      t.block.x = s.block.x ∧ (∀ k : WIndex, k ∉ [a, b, c, d] → t.block.w[k] = s.block.w[k]) ∧ s.sameOutside t) ∧
    (∀ i, i = .copy ∨ i = .permute → exec i s = .next t → t.block.x = s.block.x ∧ s.sameOutside t) ∧
    (∀ i, i = .init ∨ i = .final → exec i s = .next t → t.block.w = s.block.w ∧ s.sameOutside t) ∧
    (∀ i, i = .block ∨ i = .wipe → exec i s = .next t → s.sameOutside t)

/-- Nothing is refused, and a step stops only where the spec gives no result (R72, R245): a CIPHER issued to an unfaulted
block with an unadmitted buffer address, or the host's own access to an unadmitted address (log 6). -/
def Obligations.StepStopsOnlyWithoutAdmission : Prop :=
  ∀ s : State, (∀ r, step s ≠ .refused r) ∧
    ∀ f, step s = .fault f →
      (f = .bufferAddressNotAdmitted ∧ s.block.fault = false ∧ s.block.keyLen = 32 ∧
        (∃ rest, s.host = .write 0 0x20000000 :: rest) ∧
        ∃ i, i < s.block.bufLen.toNat ∧ admits s.map (bufferAddr s.block i) = false) ∨
      (f = .hostAddressNotAdmitted ∧
        ∃ a, admits s.map a = false ∧
          ((∃ rest, s.host = .load a :: rest) ∨ ∃ v rest, s.host = .store a v :: rest))

/-- The model's choice of log 4 loses nothing: every admission predicate on 32-bit addresses (R72) is that of some list of
ranges. -/
def Obligations.EveryAdmissionPredicateIsAMap : Prop :=
  ∀ f : Addr → Bool, ∃ map : List Region, ∀ a, admits map a = f a
end

