-- ==== Sys2Proof/Laws/Memory.lean ====
section
/-! SUPPORT. The laws of buffer memory (spec/20_memory.md R65, R74): a read after a write, a write leaves other addresses
alone, every operation keeps the canonical form, and canonical memories that read the same are equal. -/

namespace Sys2Proof.Machine

theorem lookupCell_insertCell_same (k : Nat) (v : Byte) (m : Memory) (h : ∀ c ∈ m, c.1 ≠ k) :
    lookupCell (insertCell k v m) k = v := by
  induction m with
  | nil => simp [insertCell, lookupCell]
  | cons c m ih =>
    obtain ⟨k', v'⟩ := c
    have hk : k' ≠ k := h (k', v') (by simp)
    have hm : ∀ c ∈ m, c.1 ≠ k := fun c hc => h c (by simp [hc])
    unfold insertCell
    split
    · simp [lookupCell]
    · simp [lookupCell, hk, ih hm]

theorem lookupCell_insertCell_other (k k₂ : Nat) (v : Byte) (m : Memory) (h : k₂ ≠ k) :
    lookupCell (insertCell k v m) k₂ = lookupCell m k₂ := by
  induction m with
  | nil => simp [insertCell, lookupCell, h.symm]
  | cons c m ih =>
    obtain ⟨k', v'⟩ := c
    unfold insertCell
    split
    · simp [lookupCell, h.symm]
    · simp [lookupCell, ih]

theorem lookupCell_filter_same (k : Nat) (m : Memory) :
    lookupCell (m.filter fun c => decide (c.1 ≠ k)) k = unlistedByte := by
  induction m with
  | nil => rfl
  | cons c m ih =>
    obtain ⟨k', v'⟩ := c
    by_cases hk : k' = k
    · simpa [List.filter_cons, hk] using ih
    · simpa [List.filter_cons, hk, lookupCell] using ih

theorem lookupCell_filter_other (k k₂ : Nat) (m : Memory) (h : k₂ ≠ k) :
    lookupCell (m.filter fun c => decide (c.1 ≠ k)) k₂ = lookupCell m k₂ := by
  induction m with
  | nil => rfl
  | cons c m ih =>
    obtain ⟨k', v'⟩ := c
    by_cases hk : k' = k
    · subst hk
      simpa [List.filter_cons, lookupCell, h.symm] using ih
    · by_cases hk₂ : k' = k₂
      · subst hk₂
        simp [hk, lookupCell]
      · simpa [List.filter_cons, hk, lookupCell, hk₂] using ih

/-- A read returns the last value written (20_memory.md R74). -/
@[simp] theorem readByte_writeByte_same (m : Memory) (a : Addr) (v : Byte) : (m.writeByte a v).readByte a = v := by
  unfold Memory.readByte Memory.writeByte
  simp only
  split
  · rename_i h; rw [h]; exact lookupCell_filter_same _ _
  · exact lookupCell_insertCell_same _ _ _ (by simp)

/-- A write leaves every other address alone. -/
theorem readByte_writeByte_other (m : Memory) (a a₂ : Addr) (v : Byte) (h : a₂ ≠ a) :
    (m.writeByte a v).readByte a₂ = m.readByte a₂ := by
  have hn : a₂.toNat ≠ a.toNat := fun e => h (BitVec.eq_of_toNat_eq e)
  unfold Memory.readByte Memory.writeByte
  simp only
  split
  · exact lookupCell_filter_other _ _ _ hn
  · rw [lookupCell_insertCell_other _ _ _ _ hn, lookupCell_filter_other _ _ _ hn]

theorem readByte_writeByte (m : Memory) (a a₂ : Addr) (v : Byte) :
    (m.writeByte a v).readByte a₂ = if a₂ = a then v else m.readByte a₂ := by
  by_cases h : a₂ = a
  · simp [h]
  · simp [h, readByte_writeByte_other _ _ _ _ h]

theorem cellsAbove_mono {lo lo' : Nat} {m : Memory} (h : cellsAbove lo m = true) (hl : lo' ≤ lo) :
    cellsAbove lo' m = true := by
  cases m with
  | nil => rfl
  | cons c m =>
    obtain ⟨k, v⟩ := c
    simp only [cellsAbove, Bool.and_eq_true, decide_eq_true_eq] at h ⊢
    exact ⟨⟨⟨hl.trans h.1.1.1, h.1.1.2⟩, h.1.2⟩, h.2⟩

theorem cellsAbove_filter {lo : Nat} {m : Memory} (p : Host.Cell → Bool) (h : cellsAbove lo m = true) :
    cellsAbove lo (m.filter p) = true := by
  induction m generalizing lo with
  | nil => rfl
  | cons c m ih =>
    obtain ⟨k, v⟩ := c
    simp only [cellsAbove, Bool.and_eq_true, decide_eq_true_eq] at h
    have hm := ih h.2
    rw [List.filter_cons]
    split
    · simp only [cellsAbove, Bool.and_eq_true, decide_eq_true_eq]
      exact ⟨h.1, hm⟩
    · exact cellsAbove_mono hm (by omega)

theorem cellsAbove_insertCell {lo : Nat} {m : Memory} {k : Nat} {v : Byte} (h : cellsAbove lo m = true)
    (hk : lo ≤ k) (hlt : k < 2 ^ 32) (hv : v ≠ unlistedByte) (hne : ∀ c ∈ m, c.1 ≠ k) :
    cellsAbove lo (insertCell k v m) = true := by
  induction m generalizing lo with
  | nil => simp [insertCell, cellsAbove, hk, hv]; exact hlt
  | cons c m ih =>
    obtain ⟨k', v'⟩ := c
    have hkk : k' ≠ k := hne (k', v') (by simp)
    have hm : ∀ c ∈ m, c.1 ≠ k := fun c hc => hne c (by simp [hc])
    have h' := h
    simp only [cellsAbove, Bool.and_eq_true, decide_eq_true_eq] at h
    unfold insertCell
    split
    · rename_i hlt'
      simp only [cellsAbove, Bool.and_eq_true, decide_eq_true_eq]
      exact ⟨⟨⟨hk, hlt⟩, hv⟩, ⟨⟨⟨by omega, h.1.1.2⟩, h.1.2⟩, h.2⟩⟩
    · simp only [cellsAbove, Bool.and_eq_true, decide_eq_true_eq]
      exact ⟨h.1, ih h.2 (by omega) hm⟩

/-- Every memory operation keeps the canonical form. -/
theorem writeByte_wf {m : Memory} (a : Addr) (v : Byte) (h : m.wf = true) : (m.writeByte a v).wf = true := by
  unfold Memory.writeByte
  simp only
  split
  · exact cellsAbove_filter _ h
  · rename_i hv
    exact cellsAbove_insertCell (cellsAbove_filter _ h) (Nat.zero_le _) a.isLt hv (by simp)

theorem lookupCell_below {lo k : Nat} {m : Memory} (h : cellsAbove lo m = true) (hk : k < lo) :
    lookupCell m k = unlistedByte := by
  induction m generalizing lo with
  | nil => rfl
  | cons c m ih =>
    obtain ⟨k', v'⟩ := c
    simp only [cellsAbove, Bool.and_eq_true, decide_eq_true_eq] at h
    simp [lookupCell, show k' ≠ k by omega, ih h.2 (by omega)]

theorem cellsAbove_ext {lo : Nat} {m m' : Memory} (h : cellsAbove lo m = true) (h' : cellsAbove lo m' = true)
    (heq : ∀ k, k < 2 ^ 32 → lookupCell m k = lookupCell m' k) : m = m' := by
  induction m generalizing lo m' with
  | nil =>
    cases m' with
    | nil => rfl
    | cons c m' =>
      obtain ⟨k, v⟩ := c
      simp only [cellsAbove, Bool.and_eq_true, decide_eq_true_eq] at h'
      have := heq k h'.1.1.2
      simp [lookupCell] at this
      exact absurd this.symm h'.1.2
  | cons c m ih =>
    obtain ⟨k, v⟩ := c
    simp only [cellsAbove, Bool.and_eq_true, decide_eq_true_eq] at h
    cases m' with
    | nil =>
      have := heq k h.1.1.2
      simp [lookupCell] at this
      exact absurd this h.1.2
    | cons c' m' =>
      obtain ⟨k', v'⟩ := c'
      simp only [cellsAbove, Bool.and_eq_true, decide_eq_true_eq] at h'
      have hkk : k = k' := by
        rcases Nat.lt_trichotomy k k' with hlt | heq' | hgt
        · have := heq k h.1.1.2
          rw [show lookupCell ((k', v') :: m') k = unlistedByte by
            simp [lookupCell, show k' ≠ k by omega, lookupCell_below h'.2 (show k < k' + 1 by omega)]] at this
          simp [lookupCell] at this
          exact absurd this h.1.2
        · exact heq'
        · have := heq k' h'.1.1.2
          rw [show lookupCell ((k, v) :: m) k' = unlistedByte by
            simp [lookupCell, show k ≠ k' by omega, lookupCell_below h.2 (show k' < k + 1 by omega)]] at this
          simp [lookupCell] at this
          exact absurd this.symm h'.1.2
      subst hkk
      have hv : v = v' := by
        have := heq k h.1.1.2
        simpa [lookupCell] using this
      subst hv
      have hm : m = m' := by
        refine ih h.2 h'.2 fun j hj => ?_
        by_cases hjk : k = j
        · subst hjk
          rw [lookupCell_below h.2 (by omega), lookupCell_below h'.2 (by omega)]
        · simpa [lookupCell, hjk] using heq j hj
      rw [hm]

/-- Canonical memories that read the same at every address are the same list. -/
theorem memory_ext {m m' : Memory} (h : m.wf = true) (h' : m'.wf = true)
    (heq : ∀ a, m.readByte a = m'.readByte a) : m = m' := by
  refine cellsAbove_ext h h' fun k hk => ?_
  have := heq (BitVec.ofNat 32 k)
  simp only [Memory.readByte, BitVec.toNat_ofNat, Nat.mod_eq_of_lt hk] at this
  exact this

/-- Reset memory has the canonical form. -/
theorem reset_mem_wf : State.reset.mem.wf = true := rfl

end Sys2Proof.Machine
end

