-- ==== Sys2Proof/Laws/State.lean ====
section
/-! SUPPORT. One lemma per field per update of the state, true by rfl. -/

namespace Sys2Proof.Machine

variable (s : State) (b : Block) (c : Cause) (w v : Word) (i : WIndex)

@[simp] theorem withBlock_block : (s.withBlock b).block = b := rfl
@[simp] theorem withBlock_mem : (s.withBlock b).mem = s.mem := rfl
@[simp] theorem withBlock_map : (s.withBlock b).map = s.map := rfl
@[simp] theorem withBlock_host : (s.withBlock b).host = s.host := rfl
@[simp] theorem withBlock_reads : (s.withBlock b).reads = s.reads := rfl
@[simp] theorem withBlock_withBlock (b' : Block) : (s.withBlock b).withBlock b' = s.withBlock b' := rfl
@[simp] theorem withBlock_self : s.withBlock s.block = s := rfl

@[simp] theorem raise_block : (s.raise c w).block = s.block.enterFault c w := rfl
@[simp] theorem raise_mem : (s.raise c w).mem = s.mem := rfl
@[simp] theorem raise_map : (s.raise c w).map = s.map := rfl
@[simp] theorem raise_host : (s.raise c w).host = s.host := rfl
@[simp] theorem raise_reads : (s.raise c w).reads = s.reads := rfl

@[simp] theorem resetBlock_block : s.resetBlock.block = Block.reset := rfl
@[simp] theorem resetBlock_mem : s.resetBlock.mem = s.mem := rfl
@[simp] theorem resetBlock_map : s.resetBlock.map = s.map := rfl
@[simp] theorem resetBlock_host : s.resetBlock.host = s.host := rfl
@[simp] theorem resetBlock_reads : s.resetBlock.reads = s.reads := rfl

@[simp] theorem enterFault_x : (b.enterFault c w).x = b.x := rfl
@[simp] theorem enterFault_w : (b.enterFault c w).w = b.w := rfl
@[simp] theorem enterFault_key : (b.enterFault c w).key = b.key := rfl
@[simp] theorem enterFault_nonce : (b.enterFault c w).nonce = b.nonce := rfl
@[simp] theorem enterFault_keyLen : (b.enterFault c w).keyLen = b.keyLen := rfl
@[simp] theorem enterFault_rounds : (b.enterFault c w).rounds = b.rounds := rfl
@[simp] theorem enterFault_ctr : (b.enterFault c w).ctr = b.ctr := rfl
@[simp] theorem enterFault_bufAddr : (b.enterFault c w).bufAddr = b.bufAddr := rfl
@[simp] theorem enterFault_bufLen : (b.enterFault c w).bufLen = b.bufLen := rfl
@[simp] theorem enterFault_fault : (b.enterFault c w).fault = true := rfl
@[simp] theorem enterFault_cause : (b.enterFault c w).cause = c.code := rfl
@[simp] theorem enterFault_fcmd : (b.enterFault c w).fcmd = w := rfl
@[simp] theorem enterFault_cctr : (b.enterFault c w).cctr = b.cctr := rfl
@[simp] theorem enterFault_nblk : (b.enterFault c w).nblk = b.nblk := rfl

@[simp] theorem setX_x : (b.setX i v).x = b.x.set i v := rfl
@[simp] theorem setX_w : (b.setX i v).w = b.w := rfl
@[simp] theorem setX_key : (b.setX i v).key = b.key := rfl
@[simp] theorem setX_nonce : (b.setX i v).nonce = b.nonce := rfl
@[simp] theorem setX_keyLen : (b.setX i v).keyLen = b.keyLen := rfl
@[simp] theorem setX_rounds : (b.setX i v).rounds = b.rounds := rfl
@[simp] theorem setX_ctr : (b.setX i v).ctr = b.ctr := rfl
@[simp] theorem setX_bufAddr : (b.setX i v).bufAddr = b.bufAddr := rfl
@[simp] theorem setX_bufLen : (b.setX i v).bufLen = b.bufLen := rfl
@[simp] theorem setX_fault : (b.setX i v).fault = b.fault := rfl
@[simp] theorem setX_cause : (b.setX i v).cause = b.cause := rfl
@[simp] theorem setX_fcmd : (b.setX i v).fcmd = b.fcmd := rfl
@[simp] theorem setX_cctr : (b.setX i v).cctr = b.cctr := rfl
@[simp] theorem setX_nblk : (b.setX i v).nblk = b.nblk := rfl

@[simp] theorem setW_x : (b.setW i v).x = b.x := rfl
@[simp] theorem setW_w : (b.setW i v).w = b.w.set i v := rfl
@[simp] theorem setW_key : (b.setW i v).key = b.key := rfl
@[simp] theorem setW_nonce : (b.setW i v).nonce = b.nonce := rfl
@[simp] theorem setW_keyLen : (b.setW i v).keyLen = b.keyLen := rfl
@[simp] theorem setW_rounds : (b.setW i v).rounds = b.rounds := rfl
@[simp] theorem setW_ctr : (b.setW i v).ctr = b.ctr := rfl
@[simp] theorem setW_bufAddr : (b.setW i v).bufAddr = b.bufAddr := rfl
@[simp] theorem setW_bufLen : (b.setW i v).bufLen = b.bufLen := rfl
@[simp] theorem setW_fault : (b.setW i v).fault = b.fault := rfl
@[simp] theorem setW_cause : (b.setW i v).cause = b.cause := rfl
@[simp] theorem setW_fcmd : (b.setW i v).fcmd = b.fcmd := rfl
@[simp] theorem setW_cctr : (b.setW i v).cctr = b.cctr := rfl
@[simp] theorem setW_nblk : (b.setW i v).nblk = b.nblk := rfl

end Sys2Proof.Machine
end

