-- ==== Sys2Proof/Laws/Ops.lean ====
section
/-! SUPPORT. What each shared operation does, one lemma each: admission, buffer addresses, fault entry, the byte views and
the tests on KEY_LEN and ROUNDS. -/

namespace Sys2Proof.Machine

/-- An address is admitted when it lies in some range of the map (20_memory.md R72). -/
theorem admits_iff (map : List Region) (a : Addr) :
    admits map a = true ↔ ∃ r ∈ map, r.base ≤ a.toNat ∧ a.toNat < r.base + r.size := by
  simp [admits, List.any_eq_true]

/-- The working buffer is admitted when each of its addresses is (20_memory.md R72). -/
theorem bufferAdmitted_iff (s : State) :
    bufferAdmitted s = true ↔ ∀ i, i < s.block.bufLen.toNat → admits s.map (bufferAddr s.block i) = true := by
  simp [bufferAdmitted, List.all_eq_true]

theorem bufferAdmitted_eq_false_iff (s : State) :
    bufferAdmitted s = false ↔ ∃ i, i < s.block.bufLen.toNat ∧ admits s.map (bufferAddr s.block i) = false := by
  rw [Bool.eq_false_iff, Ne, bufferAdmitted_iff]
  simp

/-- `(BUF_ADDR + i) mod 2^32` (20_memory.md R73). -/
theorem bufferAddr_toNat (b : Block) (i : Nat) : (bufferAddr b i).toNat = (b.bufAddr.toNat + i) % 2 ^ 32 := by
  simp [bufferAddr, BitVec.toNat_add]

/-- Bytes less than 2^32 apart have different addresses (20_memory.md R73). -/
theorem bufferAddr_inj {b : Block} {i j : Nat} (hi : i < 2 ^ 32) (hj : j < 2 ^ 32)
    (h : bufferAddr b i = bufferAddr b j) : i = j := by
  have := congrArg BitVec.toNat h
  rw [bufferAddr_toNat, bufferAddr_toNat] at this
  omega

theorem bufferAddr_congr {b b' : Block} (h : b'.bufAddr = b.bufAddr) (i : Nat) : bufferAddr b' i = bufferAddr b i := by
  simp [bufferAddr, h]

/-- KEY_LEN passes the test exactly when it is 32 (10_state.md R28). -/
@[simp] theorem keyLenValid_iff (k : Word) : keyLenValid k = true ↔ k = 32 := by simp [keyLenValid]

@[simp] theorem keyLenValid_eq_false_iff (k : Word) : keyLenValid k = false ↔ k ≠ 32 := by simp [keyLenValid]

/-- Fault entry writes FAULT, CAUSE and FCMD and nothing else (60_exceptions.md R247). -/
theorem raise_eq (s : State) (c : Cause) (word : Word) :
    s.raise c word = { s with block := { s.block with fault := true, cause := c.code, fcmd := word } } := rfl

/-- A cause has one of the four codes (60_exceptions.md R240). -/
theorem cause_code_cases (c : Cause) : c.code = 1 ∨ c.code = 2 ∨ c.code = 3 ∨ c.code = 4 := by
  cases c <;> simp [Cause.code]

/-- Byte k of a word as a number (40_rotate_pack.md R125). -/
theorem byteOf_toNat (w : Word) (k : Fin 4) : (byteOf w k).toNat = w.toNat / 2 ^ (8 * k.val) % 256 := by
  simp [byteOf, BitVec.toNat_setWidth, BitVec.toNat_ushiftRight, Nat.shiftRight_eq_div_pow]

/-- The bits of a byte of a word (40_rotate_pack.md R125). -/
theorem byteOf_getLsbD (w : Word) (k : Fin 4) (i : Nat) (hi : i < 8) :
    (byteOf w k).getLsbD i = w.getLsbD (8 * k.val + i) := by
  simp [byteOf, hi]

/-- The bits of a packed word: bits 8k to 8k+7 are byte k (40_rotate_pack.md R124). -/
theorem pack32le_getLsbD (b0 b1 b2 b3 : Byte) (i : Nat) :
    (pack32le b0 b1 b2 b3).getLsbD i =
      if i < 8 then b0.getLsbD i
      else if i < 16 then b1.getLsbD (i - 8)
      else if i < 24 then b2.getLsbD (i - 16)
      else if i < 32 then b3.getLsbD (i - 24)
      else false := by
  unfold pack32le
  simp only [BitVec.getLsbD_or, BitVec.getLsbD_shiftLeft, BitVec.getLsbD_setWidth]
  by_cases h1 : i < 8
  · simp [h1, show i < 32 by omega, show i < 16 by omega, show i < 24 by omega]
  · by_cases h2 : i < 16
    · simp [h1, h2, show i < 32 by omega, show i < 24 by omega, show i - 8 < 32 by omega,
        BitVec.getLsbD_of_ge b0 i (by omega)]
    · by_cases h3 : i < 24
      · simp [h1, h2, h3, show i < 32 by omega, show i - 8 < 32 by omega, show i - 16 < 32 by omega,
          BitVec.getLsbD_of_ge b0 i (by omega), BitVec.getLsbD_of_ge b1 (i - 8) (by omega)]
      · by_cases h4 : i < 32
        · simp [h1, h2, h3, h4, show i - 24 < 32 by omega,
            BitVec.getLsbD_of_ge b0 i (by omega), BitVec.getLsbD_of_ge b1 (i - 8) (by omega),
            BitVec.getLsbD_of_ge b2 (i - 16) (by omega)]
        · simp [h1, h2, h3, h4]

/-- Unpacking a packed word gives its bytes (40_rotate_pack.md R128). -/
theorem byteOf_pack32le (b0 b1 b2 b3 : Byte) :
    byteOf (pack32le b0 b1 b2 b3) 0 = b0 ∧ byteOf (pack32le b0 b1 b2 b3) 1 = b1 ∧
      byteOf (pack32le b0 b1 b2 b3) 2 = b2 ∧ byteOf (pack32le b0 b1 b2 b3) 3 = b3 := by
  refine ⟨?_, ?_, ?_, ?_⟩ <;>
  · refine BitVec.eq_of_getLsbD_eq fun i hi => ?_
    rw [byteOf_getLsbD _ _ _ hi, pack32le_getLsbD]
    simp [show ¬ 8 + i < 8 by omega, show 8 + i < 16 by omega, show ¬ 16 + i < 8 by omega, show ¬ 16 + i < 16 by omega,
      show 16 + i < 24 by omega, show ¬ 24 + i < 8 by omega, show ¬ 24 + i < 16 by omega,
      show ¬ 24 + i < 24 by omega, show 24 + i < 32 by omega, hi]

/-- Packing the bytes of a word gives the word (40_rotate_pack.md R128). -/
theorem pack32le_byteOf (w : Word) : pack32le (byteOf w 0) (byteOf w 1) (byteOf w 2) (byteOf w 3) = w := by
  refine BitVec.eq_of_getLsbD_eq fun i hi => ?_
  rw [pack32le_getLsbD]
  split
  · rw [byteOf_getLsbD _ _ _ ‹_›]; simp
  · split
    · rw [byteOf_getLsbD _ _ _ (by omega)]; congr 1; simp; omega
    · split
      · rw [byteOf_getLsbD _ _ _ (by omega)]; congr 1; simp; omega
      · rw [byteOf_getLsbD _ _ _ (by omega)]; congr 1; simp; omega

/-- A key word the host writes sets its own four bytes and no other (20_memory.md R64). -/
theorem setKeyWord_getElem (key : Vector Byte 32) (j : Fin 8) (v : Word) (i : Fin 32) :
    (setKeyWord key j v)[i] = if i.val / 4 = j.val then byteOf v ⟨i.val % 4, by omega⟩ else key[i] := by
  simp only [setKeyWord, Fin.getElem_fin, Vector.getElem_set]
  by_cases h : i.val / 4 = j.val
  · rw [if_pos h]
    rcases (show i.val % 4 = 0 ∨ i.val % 4 = 1 ∨ i.val % 4 = 2 ∨ i.val % 4 = 3 by omega) with h2 | h2 | h2 | h2
    · rw [if_neg (by omega), if_neg (by omega), if_neg (by omega), if_pos (by omega)]; congr 1; simp [h2]
    · rw [if_neg (by omega), if_neg (by omega), if_pos (by omega)]; congr 1; simp [h2]
    · rw [if_neg (by omega), if_pos (by omega)]; congr 1; simp [h2]
    · rw [if_pos (by omega)]; congr 1; simp [h2]
  · rw [if_neg h, if_neg (by omega), if_neg (by omega), if_neg (by omega), if_neg (by omega)]

/-- A nonce word the host writes sets its own four bytes and no other (20_memory.md R64). -/
theorem setNonceWord_getElem (nonce : Vector Byte 12) (j : Fin 3) (v : Word) (i : Fin 12) :
    (setNonceWord nonce j v)[i] = if i.val / 4 = j.val then byteOf v ⟨i.val % 4, by omega⟩ else nonce[i] := by
  simp only [setNonceWord, Fin.getElem_fin, Vector.getElem_set]
  by_cases h : i.val / 4 = j.val
  · rw [if_pos h]
    rcases (show i.val % 4 = 0 ∨ i.val % 4 = 1 ∨ i.val % 4 = 2 ∨ i.val % 4 = 3 by omega) with h2 | h2 | h2 | h2
    · rw [if_neg (by omega), if_neg (by omega), if_neg (by omega), if_pos (by omega)]; congr 1; simp [h2]
    · rw [if_neg (by omega), if_neg (by omega), if_pos (by omega)]; congr 1; simp [h2]
    · rw [if_neg (by omega), if_pos (by omega)]; congr 1; simp [h2]
    · rw [if_pos (by omega)]; congr 1; simp [h2]
  · rw [if_neg h, if_neg (by omega), if_neg (by omega), if_neg (by omega), if_neg (by omega)]

end Sys2Proof.Machine
end

