-- ==== Sys2Proof/Laws/Rounds.lean ====
section
/-! SUPPORT. What the rounds, the initializer, the finalizer and the block builder do, one lemma each
(spec/41_quarter_round.md to spec/44_finalizer_block.md). -/

namespace Sys2Proof.Machine

/-- QR writes the four words it names, if they are distinct (41_quarter_round.md R142). -/
theorem qrWords_named (a b c d : WIndex) (w : Words) (h : distinctIndices a b c d = true) :
    (qrWords a b c d w)[a] = (quarterRound w[a] w[b] w[c] w[d]).1 ∧
    (qrWords a b c d w)[b] = (quarterRound w[a] w[b] w[c] w[d]).2.1 ∧
    (qrWords a b c d w)[c] = (quarterRound w[a] w[b] w[c] w[d]).2.2.1 ∧
    (qrWords a b c d w)[d] = (quarterRound w[a] w[b] w[c] w[d]).2.2.2 := by
  simp only [distinctIndices, Bool.and_eq_true, decide_eq_true_eq, ne_eq, Fin.ext_iff] at h
  obtain ⟨⟨⟨⟨⟨hab, hac⟩, had⟩, hbc⟩, hbd⟩, hcd⟩ := h
  refine ⟨?_, ?_, ?_, ?_⟩
  · simp [qrWords, Ne.symm hab, Ne.symm hac, Ne.symm had]
  · simp [qrWords, Ne.symm hbc, Ne.symm hbd]
  · simp [qrWords, Ne.symm hcd]
  · simp [qrWords]

/-- QR writes no word it does not name (41_quarter_round.md R142). -/
theorem qrWords_other (a b c d : WIndex) (w : Words) (k : WIndex) (ha : k ≠ a) (hb : k ≠ b) (hc : k ≠ c) (hd : k ≠ d) :
    (qrWords a b c d w)[k] = w[k] := by
  simp only [ne_eq, Fin.ext_iff] at ha hb hc hd
  simp [qrWords, Ne.symm ha, Ne.symm hb, Ne.symm hc, Ne.symm hd]

/-- The loop of the permutation is the double round iterated (43_permutation.md R181). -/
theorem doubleRounds_eq_iterate (n : Nat) (w : Words) : doubleRounds n w = doubleRound^[n] w := by
  induction n generalizing w with
  | zero => rfl
  | succ n ih => simp [doubleRounds, ih, Function.iterate_succ_apply]

/-- FeedForward adds word by word (44_finalizer_block.md R190). -/
@[simp] theorem addWords_getElem (x w : Words) (i : WIndex) : (addWords x w)[i] = x[i] + w[i] := by
  simp [addWords, add32]

/-- The initialized matrix, row by row (42_state_initializer.md R160): the four key words of each key row, the counter,
the nonce. -/
theorem initWords_getElem (key : Vector Byte 32) (nonce : Vector Byte 12) (ctr : Word) :
    (∀ j : Fin 8, (initWords key nonce ctr)[4 + j.val] = keyWord key j) ∧ (initWords key nonce ctr)[12] = ctr ∧
      ∀ j : Fin 3, (initWords key nonce ctr)[13 + j.val] = nonceWord nonce j := by
  refine ⟨fun j => ?_, rfl, fun j => ?_⟩
  · match j with
    | 0 => rfl
    | 1 => rfl
    | 2 => rfl
    | 3 => rfl
    | 4 => rfl
    | 5 => rfl
    | 6 => rfl
    | 7 => rfl
  · match j with
    | 0 => rfl
    | 1 => rfl
    | 2 => rfl

/-- The permuted working copy of a block build (44_finalizer_block.md R194). -/
def blockW (key : Vector Byte 32) (nonce : Vector Byte 12) (ctr r : Word) : Words :=
  doubleRounds (r.toNat / 2) (initWords key nonce ctr)

/-- The keystream block of a block build (44_finalizer_block.md R194). -/
def blockX (key : Vector Byte 32) (nonce : Vector Byte 12) (ctr r : Word) : Words :=
  addWords (initWords key nonce ctr) (blockW key nonce ctr r)

/-- BuildBlock overwrites X and W with values that depend on KEY, NONCE, the counter and the round count alone
(44_finalizer_block.md R193, R194). -/
theorem buildBlock_eq (ctr r : Word) (b : Block) :
    buildBlock ctr r b = { b with x := blockX b.key b.nonce ctr r, w := blockW b.key b.nonce ctr r } := rfl

end Sys2Proof.Machine
end

