-- ==== Sys2Proof/Laws/Cipher.lean ====
section
/-! SUPPORT. What the loop of CIPHER has done after k bytes (spec/45_keystream_cipher.md R210 to R214). -/

namespace Sys2Proof.Machine

/-- The loop splits: n bytes and then m bytes. -/
theorem cipherBytes_add (n m i : Nat) (c : CipherRun) :
    cipherBytes (n + m) i c = cipherBytes m (i + n) (cipherBytes n i c) := by
  induction n generalizing i c with
  | zero => simp [cipherBytes]
  | succ n ih =>
    rw [Nat.add_right_comm]
    simp only [cipherBytes, ih]
    congr 1
    omega

theorem cipherBytes_succ (n i : Nat) (c : CipherRun) :
    cipherBytes (n + 1) i c = xorByte (i + n) (chunkBoundary (i + n) (cipherBytes n i c)) := by
  rw [cipherBytes_add]
  rfl

/-- Everything the first `k` bytes of a CIPHER command do: the block keeps all but X and W, which are those of the last
block built; the counter and the count have advanced once per chunk; bytes 0 to k - 1 of the buffer are exclusive-ored
with their keystream bytes; no other byte has changed; the canonical form is kept. -/
theorem cipherBytes_spec (s : State) (k : Nat) (hk : k < 2 ^ 32) :
    let c := cipherBytes k 0 (cipherStart s)
    let blocks := (k + 63) / 64
    c.block = { s.block with x := c.block.x, w := c.block.w } ∧
    (k = 0 → c.block.x = s.block.x ∧ c.block.w = s.block.w) ∧
    (k ≠ 0 → c.block.x = blockX s.block.key s.block.nonce (s.block.ctr + BitVec.ofNat 32 (blocks - 1)) s.block.rounds ∧
      c.block.w = blockW s.block.key s.block.nonce (s.block.ctr + BitVec.ofNat 32 (blocks - 1)) s.block.rounds) ∧
    c.cc = s.block.ctr + BitVec.ofNat 32 blocks ∧ c.nb = BitVec.ofNat 32 blocks ∧
    (∀ i, i < k → c.mem.readByte (bufferAddr s.block i) =
      s.mem.readByte (bufferAddr s.block i) ^^^
        keystreamByte (blockX s.block.key s.block.nonce (s.block.ctr + BitVec.ofNat 32 (i / 64)) s.block.rounds)
          (Fin.ofNat 64 i)) ∧
    (∀ a, (∀ i, i < k → a ≠ bufferAddr s.block i) → c.mem.readByte a = s.mem.readByte a) ∧
    (s.mem.wf = true → c.mem.wf = true) := by
  induction k with
  | zero => simp [cipherBytes, cipherStart]
  | succ k ih =>
    obtain ⟨hb, h0, hx, hcc, hnb, hin, hout, hwf⟩ := ih (by omega)
    rw [cipherBytes_succ, Nat.zero_add]
    generalize hc : cipherBytes k 0 (cipherStart s) = c at hb h0 hx hcc hnb hin hout hwf
    -- the run at the chunk boundary
    obtain ⟨c', hc', hb', hx', hw', hcc', hnb', hm'⟩ : ∃ c', chunkBoundary k c = c' ∧
        c'.block = { s.block with x := c'.block.x, w := c'.block.w } ∧
        c'.block.x = blockX s.block.key s.block.nonce (s.block.ctr + BitVec.ofNat 32 (k / 64)) s.block.rounds ∧
        c'.block.w = blockW s.block.key s.block.nonce (s.block.ctr + BitVec.ofNat 32 (k / 64)) s.block.rounds ∧
        c'.cc = s.block.ctr + BitVec.ofNat 32 ((k + 1 + 63) / 64) ∧
        c'.nb = BitVec.ofNat 32 ((k + 1 + 63) / 64) ∧ c'.mem = c.mem := by
      refine ⟨_, rfl, ?_⟩
      unfold chunkBoundary
      split
      · rename_i hmod
        have e1 : (k + 63) / 64 = k / 64 := by omega
        have e2 : (k + 1 + 63) / 64 = k / 64 + 1 := by omega
        rw [e1] at hcc hnb
        have hkey : c.block.key = s.block.key := by rw [hb]
        have hnonce : c.block.nonce = s.block.nonce := by rw [hb]
        have hr : c.block.rounds = s.block.rounds := by rw [hb]
        refine ⟨?_, ?_, ?_, ?_, ?_, rfl⟩
        · simp only [buildBlock_eq]
          rw [hb]
        · simp only [buildBlock_eq, hkey, hnonce, hr, hcc]
        · simp only [buildBlock_eq, hkey, hnonce, hr, hcc]
        · simp only [hcc, e2, BitVec.ofNat_add, BitVec.add_assoc]
          rfl
        · simp only [hnb, e2, BitVec.ofNat_add]
          rfl
      · rename_i hmod
        have hk0 : k ≠ 0 := by rintro rfl; simp at hmod
        have e1 : (k + 63) / 64 - 1 = k / 64 := by omega
        have e2 : (k + 1 + 63) / 64 = (k + 63) / 64 := by omega
        have := hx hk0
        rw [e1] at this
        exact ⟨hb, this.1, this.2, by rw [hcc, e2], by rw [hnb, e2], rfl⟩
    rw [hc']
    have ha : bufferAddr c'.block k = bufferAddr s.block k := by rw [hb']; rfl
    have hfresh : ∀ i, i < k → bufferAddr s.block k ≠ bufferAddr s.block i := fun i hi h =>
      absurd (bufferAddr_inj (by omega) (by omega) h) (by omega)
    have e3 : (k + 1 + 63) / 64 - 1 = k / 64 := by omega
    refine ⟨hb', by simp, fun _ => ?_, hcc', hnb', fun i hi => ?_, fun a hna => ?_, fun h => ?_⟩
    · rw [e3]; exact ⟨hx', hw'⟩
    · simp only [xorByte, ha, hm']
      rw [readByte_writeByte]
      by_cases hik : i = k
      · subst hik
        rw [if_pos rfl, hout _ hfresh, hx']
      · rw [if_neg fun h => hfresh i (by omega) h.symm]
        exact hin i (by omega)
    · simp only [xorByte, ha, hm']
      rw [readByte_writeByte_other _ _ _ _ (hna k (by omega))]
      exact hout a fun i hi => hna i (by omega)
    · simp only [xorByte, hm']
      exact writeByte_wf _ _ (hwf h)

end Sys2Proof.Machine
end

