-- ==== Sys2Proof/Laws/Decode.lean ====
section
/-! SUPPORT. The fields of a command word and its encodings as numbers, and what decoding can answer
(spec/30_encoding.md R90 to R98). -/

namespace Sys2Proof

/-- An index placed at bit `lo` (30_encoding.md R90). -/
theorem placeIndex_toNat (k : WIndex) (lo : Nat) (h : lo ≤ 28) : (placeIndex k lo).toNat = 2^lo * k.val := by
  unfold placeIndex
  rw [BitVec.toNat_shiftLeft, BitVec.toNat_ofNat, Nat.shiftLeft_eq]
  have : k.val < 16 := k.isLt
  have h2 : 2^lo ≤ 2^28 := Nat.pow_le_pow_right (by decide) h
  rw [Nat.mod_eq_of_lt (by omega : k.val < 2^32), Nat.mod_eq_of_lt, Nat.mul_comm]
  calc k.val * 2^lo ≤ 15 * 2^28 := Nat.mul_le_mul (by omega) h2
    _ < 2^32 := by decide

/-- The ROTL word as a number: `0x01000000 | a<<20 | b<<16 | imm8` (30_encoding.md R98). -/
theorem encode_rotl_toNat (a b : WIndex) (n : Byte) :
    (encode (.rotl a b n)).toNat = 2^24 + a.val * 2^20 + b.val * 2^16 + n.toNat := by
  simp only [encode, BitVec.toNat_or, placeIndex_toNat _ _ (show 20 ≤ 28 by decide), placeIndex_toNat _ _ (show 16 ≤ 28 by decide)]
  have ha := a.isLt; have hb := b.isLt; have hn := n.isLt
  rw [show BitVec.toNat (16777216 : Word) = 2^24 * 1 from rfl, ← Nat.two_pow_add_eq_or_of_lt (by omega),
    show 2^24*1 + 2^20 * a.val = 2^20 * (16 + a.val) by omega, ← Nat.two_pow_add_eq_or_of_lt (by omega),
    show 2^20 * (16 + a.val) + 2^16 * b.val = 2^16 * (256 + 16 * a.val + b.val) by omega, BitVec.toNat_setWidth,
    ← Nat.two_pow_add_eq_or_of_lt (by omega)]
  omega

/-- The QR word as a number (30_encoding.md R98). -/
theorem encode_qr_toNat (a b c d : WIndex) :
    (encode (.qr a b c d)).toNat = 2 * 2^24 + a.val * 2^20 + b.val * 2^16 + c.val * 2^12 + d.val * 2^8 := by
  simp only [encode, BitVec.toNat_or, placeIndex_toNat _ _ (show 20 ≤ 28 by decide), placeIndex_toNat _ _ (show 16 ≤ 28 by decide), placeIndex_toNat _ _ (show 12 ≤ 28 by decide), placeIndex_toNat _ _ (show 8 ≤ 28 by decide)]
  have ha := a.isLt; have hb := b.isLt; have hc := c.isLt; have hd := d.isLt
  rw [show BitVec.toNat (33554432 : Word) = 2^24 * 2 from rfl, ← Nat.two_pow_add_eq_or_of_lt (by omega),
    show 2^24*2 + 2^20 * a.val = 2^20 * (32 + a.val) by omega, ← Nat.two_pow_add_eq_or_of_lt (by omega),
    show 2^20 * (32 + a.val) + 2^16 * b.val = 2^16 * (512 + 16 * a.val + b.val) by omega,
    ← Nat.two_pow_add_eq_or_of_lt (by omega),
    show 2^16 * (512 + 16 * a.val + b.val) + 2^12 * c.val = 2^12 * (16 * (512 + 16 * a.val + b.val) + c.val) by omega,
    ← Nat.two_pow_add_eq_or_of_lt (by omega)]
  omega

/-! The fields of a word as numbers (30_encoding.md R90). -/

theorem opField_toNat (w : Word) : (opField w).toNat = w.toNat / 2^24 := by
  have := w.isLt
  simp only [opField, BitVec.extractLsb'_toNat, Nat.shiftRight_eq_div_pow]; omega
theorem aField_val (w : Word) : (aField w).val = w.toNat / 2^20 % 16 := by
  simp [aField, Nat.shiftRight_eq_div_pow]
theorem bField_val (w : Word) : (bField w).val = w.toNat / 2^16 % 16 := by
  simp [bField, Nat.shiftRight_eq_div_pow]
theorem cField_val (w : Word) : (cField w).val = w.toNat / 2^12 % 16 := by
  simp [cField, Nat.shiftRight_eq_div_pow]
theorem dField_val (w : Word) : (dField w).val = w.toNat / 2^8 % 16 := by
  simp [dField, Nat.shiftRight_eq_div_pow]
theorem imm8Field_toNat (w : Word) : (imm8Field w).toNat = w.toNat % 256 := by
  simp [imm8Field, BitVec.extractLsb'_toNat]

/-- Pairwise distinct indices (30_encoding.md R94). -/
theorem distinctIndices_iff (a b c d : WIndex) : distinctIndices a b c d = true ↔ [a.val,b.val,c.val,d.val].Nodup := by
  simp [distinctIndices, Fin.ext_iff]; tauto

/-- What decoding a word can answer, with the conditions of R98 under which it does. -/
theorem decode_cases (w : Word) :
    (opField w = 1 ∧ cField w = 0 ∧ dField w = 0 ∧
      decode w = .cmd (.rotl (aField w) (bField w) (imm8Field w))) ∨
    (opField w = 2 ∧ imm8Field w = 0 ∧ distinctIndices (aField w) (bField w) (cField w) (dField w) = true ∧
      decode w = .cmd (.qr (aField w) (bField w) (cField w) (dField w))) ∨
    (∃ i, (i, w) ∈ [(Instr.init, (0x10000000 : Word)), (.copy, 0x11000000), (.permute, 0x12000000),
        (.final, 0x13000000), (.block, 0x14000000), (.cipher, 0x20000000), (.wipe, 0x30000000)] ∧
      decode w = .cmd i) ∨
    (¬(opField w = 1 ∧ cField w = 0 ∧ dField w = 0) ∧
      ¬(opField w = 2 ∧ imm8Field w = 0 ∧ distinctIndices (aField w) (bField w) (cField w) (dField w) = true) ∧
      w ∉ [(0x10000000 : Word), 0x11000000, 0x12000000, 0x13000000, 0x14000000, 0x20000000, 0x30000000] ∧
      decode w = .illegal (whyIllegal w)) := by
  by_cases h1 : opField w = 1 ∧ cField w = 0 ∧ dField w = 0
  · left; refine ⟨h1.1, h1.2.1, h1.2.2, ?_⟩; simp only [decode]; rw [if_pos h1]
  by_cases h2 : opField w = 2 ∧ imm8Field w = 0 ∧ distinctIndices (aField w) (bField w) (cField w) (dField w) = true
  · right; left; refine ⟨h2.1, h2.2.1, h2.2.2, ?_⟩; simp only [decode]; rw [if_neg h1, if_pos h2]
  by_cases h3 : w ∈ [(0x10000000:Word), 0x11000000,0x12000000,0x13000000,0x14000000,0x20000000,0x30000000]
  · right; right; left
    simp only [List.mem_cons, List.not_mem_nil, or_false] at h3
    rcases h3 with rfl | rfl | rfl | rfl | rfl | rfl | rfl
    · exact ⟨.init, by simp, rfl⟩
    · exact ⟨.copy, by simp, rfl⟩
    · exact ⟨.permute, by simp, rfl⟩
    · exact ⟨.final, by simp, rfl⟩
    · exact ⟨.block, by simp, rfl⟩
    · exact ⟨.cipher, by simp, rfl⟩
    · exact ⟨.wipe, by simp, rfl⟩
  · right; right; right
    refine ⟨h1, h2, h3, ?_⟩
    simp only [List.mem_cons, List.not_mem_nil, or_false, not_or] at h3
    simp only [decode]
    obtain ⟨q1,q2,q3,q4,q5,q6,q7⟩ := h3
    rw [if_neg h1, if_neg h2, if_neg q1, if_neg q2, if_neg q3, if_neg q4, if_neg q5, if_neg q6, if_neg q7]

/-- The row of ROTL as fields of the word (30_encoding.md R93). -/
theorem rotlRow_iff (w : Word) : w &&& 0xFF00FF00 = 0x01000000 ↔ w.toNat / 2^24 = 1 ∧ w.toNat / 2^8 % 2^8 = 0 := by
  constructor
  · intro h
    have a1 := congrArg (fun x => x.extractLsb' 24 8) h
    have a2 := congrArg (fun x => x.extractLsb' 8 8) h
    simp only [BitVec.extractLsb'_and] at a1 a2
    rw [show (0xFF00FF00 : Word).extractLsb' 24 8 = BitVec.allOnes 8 by decide, BitVec.and_allOnes] at a1
    rw [show (0xFF00FF00 : Word).extractLsb' 8 8 = BitVec.allOnes 8 by decide, BitVec.and_allOnes] at a2
    have b1 := congrArg BitVec.toNat a1; have b2 := congrArg BitVec.toNat a2
    simp only [BitVec.extractLsb'_toNat, Nat.shiftRight_eq_div_pow] at b1 b2
    have := w.isLt
    simp at *; omega
  · rintro ⟨h1, h2⟩
    refine BitVec.eq_of_getLsbD_eq fun i hi => ?_
    have a1 : w.extractLsb' 24 8 = 1 := by
      apply BitVec.eq_of_toNat_eq; have := w.isLt
      simp only [BitVec.extractLsb'_toNat, Nat.shiftRight_eq_div_pow]; simp; omega
    have a2 : w.extractLsb' 8 8 = 0 := by
      apply BitVec.eq_of_toNat_eq; have := w.isLt
      simp only [BitVec.extractLsb'_toNat, Nat.shiftRight_eq_div_pow]; simp; omega
    rw [BitVec.getLsbD_and]
    by_cases c1 : i < 8
    · rw [show (0xFF00FF00:Word).getLsbD i = false by revert i; decide, show (0x01000000:Word).getLsbD i = false by revert i; decide]; simp
    by_cases c2 : i < 16
    · have := congrArg (fun x => x.getLsbD (i-8)) a2
      simp [show i - 8 < 8 by omega, show 8 + (i-8) = i by omega] at this
      rw [this, show (0x01000000:Word).getLsbD i = false by clear this a1 a2 h1 h2; revert i; decide]; simp
    by_cases c3 : i < 24
    · rw [show (0xFF00FF00:Word).getLsbD i = false by revert i; decide, show (0x01000000:Word).getLsbD i = false by revert i; decide]; simp
    · have := congrArg (fun x => x.getLsbD (i-24)) a1
      simp only [BitVec.getLsbD_extractLsb', show i - 24 < 8 by omega, show 24 + (i-24) = i by omega, decide_true, Bool.true_and] at this
      rw [this, show (0xFF00FF00:Word).getLsbD i = true by clear this a1 a2 h1 h2; revert i; decide, Bool.and_true]; clear this a1 a2 h1 h2
      revert i; decide

/-- The row of QR as fields of the word (30_encoding.md R93). -/
theorem qrRow_iff (w : Word) : w &&& 0xFF0000FF = 0x02000000 ↔ w.toNat / 2^24 = 2 ∧ w.toNat % 2^8 = 0 := by
  constructor
  · intro h
    have a1 := congrArg (fun x => x.extractLsb' 24 8) h
    have a2 := congrArg (fun x => x.extractLsb' 0 8) h
    simp only [BitVec.extractLsb'_and] at a1 a2
    rw [show (0xFF0000FF : Word).extractLsb' 24 8 = BitVec.allOnes 8 by decide, BitVec.and_allOnes] at a1
    rw [show (0xFF0000FF : Word).extractLsb' 0 8 = BitVec.allOnes 8 by decide, BitVec.and_allOnes] at a2
    have b1 := congrArg BitVec.toNat a1; have b2 := congrArg BitVec.toNat a2
    simp only [BitVec.extractLsb'_toNat, Nat.shiftRight_eq_div_pow] at b1 b2
    have := w.isLt
    simp at *; omega
  · rintro ⟨h1, h2⟩
    refine BitVec.eq_of_getLsbD_eq fun i hi => ?_
    have a1 : w.extractLsb' 24 8 = 2 := by
      apply BitVec.eq_of_toNat_eq; have := w.isLt
      simp only [BitVec.extractLsb'_toNat, Nat.shiftRight_eq_div_pow]; simp; omega
    have a2 : w.extractLsb' 0 8 = 0 := by
      apply BitVec.eq_of_toNat_eq; have := w.isLt
      simp only [BitVec.extractLsb'_toNat, Nat.shiftRight_eq_div_pow]; simp; omega
    rw [BitVec.getLsbD_and]
    by_cases c1 : i < 8
    · have := congrArg (fun x => x.getLsbD i) a2
      simp [c1] at this
      rw [show (0x02000000:Word).getLsbD i = false by clear this a1 a2 h1 h2; revert i; decide]; simp [this]
    by_cases c3 : i < 24
    · rw [show (0xFF0000FF:Word).getLsbD i = false by revert i; decide, show (0x02000000:Word).getLsbD i = false by revert i; decide]; simp
    · have := congrArg (fun x => x.getLsbD (i-24)) a1
      simp only [BitVec.getLsbD_extractLsb', show i - 24 < 8 by omega, show 24 + (i-24) = i by omega, decide_true, Bool.true_and] at this
      rw [this, show (0xFF0000FF:Word).getLsbD i = true by clear this a1 a2 h1 h2; revert i; decide, Bool.and_true]; clear this a1 a2 h1 h2
      revert i; decide

end Sys2Proof
end

