-- ==== Sys2Proof/Laws/PerInstr.lean ====
section
/-! SUPPORT. Statements about every command as syntax, one lemma per constructor of Instr. -/

/-- The mask and the match of the command's row (spec/30_encoding.md R93). -/
def Sys2Proof.Laws.rowOf : Sys2Proof.Instr → Sys2Proof.Word × Sys2Proof.Word
  | .rotl _ _ _ => (0xFF00FF00, 0x01000000)
  | .qr _ _ _ _ => (0xFF0000FF, 0x02000000)
  | .init => (0xFFFFFFFF, 0x10000000)
  | .copy => (0xFFFFFFFF, 0x11000000)
  | .permute => (0xFFFFFFFF, 0x12000000)
  | .final => (0xFFFFFFFF, 0x13000000)
  | .block => (0xFFFFFFFF, 0x14000000)
  | .cipher => (0xFFFFFFFF, 0x20000000)
  | .wipe => (0xFFFFFFFF, 0x30000000)

/-- The word the encoder gives lies in the command's own row: under the row's mask it is the row's match
(spec/30_encoding.md R93, R98). -/
def Sys2Proof.Laws.EncodeMatchesRow.Statement (i : Sys2Proof.Instr) : Prop :=
  Sys2Proof.encode i &&& (Sys2Proof.Laws.rowOf i).1 = (Sys2Proof.Laws.rowOf i).2

namespace Sys2Proof.Laws.EncodeMatchesRow

/-- Under a mask that keeps none of an index's bits, the index leaves nothing. -/
theorem placeIndex_and (k : WIndex) :
    placeIndex k 20 &&& 0xFF00FF00 = 0 ∧ placeIndex k 16 &&& 0xFF00FF00 = 0 ∧ placeIndex k 20 &&& 0xFF0000FF = 0 ∧
      placeIndex k 16 &&& 0xFF0000FF = 0 ∧ placeIndex k 12 &&& 0xFF0000FF = 0 ∧ placeIndex k 8 &&& 0xFF0000FF = 0 := by
  revert k; decide

/-- The immediate lies outside the mask of ROTL. -/
theorem imm8_and (n : Byte) : n.setWidth 32 &&& (0xFF00FF00 : Word) = 0 := by
  revert n; decide

theorem rotl (a b : WIndex) (n : Byte) : Statement (.rotl a b n) := by
  simp only [Statement, encode, rowOf, BitVec.and_or_distrib_right, (placeIndex_and _).1, (placeIndex_and _).2.1, imm8_and]
  rfl

theorem qr (a b c d : WIndex) : Statement (.qr a b c d) := by
  simp only [Statement, encode, rowOf, BitVec.and_or_distrib_right, (placeIndex_and _).2.2.1, (placeIndex_and _).2.2.2.1,
    (placeIndex_and _).2.2.2.2.1, (placeIndex_and _).2.2.2.2.2]
  rfl

theorem init : Statement .init := rfl

theorem copy : Statement .copy := rfl

theorem permute : Statement .permute := rfl

theorem final : Statement .final := rfl

theorem block : Statement .block := rfl

theorem cipher : Statement .cipher := rfl

theorem wipe : Statement .wipe := rfl

end Sys2Proof.Laws.EncodeMatchesRow
end

