-- ==== Sys2Proof/Laws/Step.lean ====
section
/-! SUPPORT. Everything a command, a host action and a step can do, said once (spec/46_system.md R233, R234,
spec/60_exceptions.md R240 to R250). -/

namespace Sys2Proof.Machine

/-- When a command raises a fault, and which (60_exceptions.md R241 to R246). -/
def raisesCause (i : Instr) (s : State) : Cause → Prop
  | .eRot => ∃ a b n, i = .rotl a b n ∧ ¬(1 ≤ n.toNat ∧ n.toNat ≤ 31)
  | .eKeyLen => s.block.keyLen ≠ 32 ∧ (i = .init ∨ i = .block ∨ i = .cipher)
  | .eRounds => roundsValid s.block.rounds = false ∧
      (i = .permute ∨ (i = .block ∧ s.block.keyLen = 32) ∨
        (i = .cipher ∧ s.block.keyLen = 32 ∧ s.block.bufLen ≠ 0))
  | .eCmd => i.wf = false

/-- The preconditions of CIPHER (45_keystream_cipher.md R210, R217, R218). -/
def cipherRuns (s : State) : Prop :=
  s.block.keyLen = 32 ∧ (s.block.bufLen ≠ 0 → roundsValid s.block.rounds = true) ∧ bufferAdmitted s = true

/-- What the commands do that neither fault nor run CIPHER: they write X and W alone. -/
def registerEffect (i : Instr) (b : Block) : Words × Words :=
  match i with
  | .rotl a c n =>
    if h : 1 ≤ n.toNat ∧ n.toNat ≤ 31 then (b.x, b.w.set a (rotl32 b.w[c] ⟨n.toNat, h⟩)) else (b.x, b.w)
  | .qr p q r t => (b.x, qrWords p q r t b.w)
  | .init => (initWords b.key b.nonce b.ctr, b.w)
  | .copy => (b.x, b.x)
  | .permute => (b.x, doubleRounds (b.rounds.toNat / 2) b.w)
  | .final => (addWords b.x b.w, b.w)
  | .block => (blockX b.key b.nonce b.ctr b.rounds, blockW b.key b.nonce b.ctr b.rounds)
  | .cipher => (b.x, b.w)
  | .wipe => (Vector.replicate 16 0, Vector.replicate 16 0)

/-- CIPHER with its preconditions met. -/
theorem execCipher_of_runs {s : State} (h : cipherRuns s) :
    execCipher s = .next (cipherEnd s (cipherBytes s.block.bufLen.toNat 0 (cipherStart s))) := by
  obtain ⟨hk, hr, ha⟩ := h
  unfold execCipher
  rw [if_pos (by simp [hk]), if_neg, if_pos ha]
  rintro ⟨hl, hv⟩
  simp [hr hl] at hv

/-- Every command: it faults for a stated cause, writes X and W as stated, runs the CIPHER loop, or (CIPHER alone, on an
unadmitted buffer) has no step. -/
theorem exec_cases (i : Instr) (s : State) :
    (∃ c, raisesCause i s c ∧ exec i s = .next (s.raise c (encode i))) ∨
    (i ≠ .cipher ∧ exec i s = .next (s.withBlock
      { s.block with x := (registerEffect i s.block).1, w := (registerEffect i s.block).2 })) ∨
    (i = .cipher ∧ cipherRuns s ∧
      exec i s = .next (cipherEnd s (cipherBytes s.block.bufLen.toNat 0 (cipherStart s)))) ∨
    (i = .cipher ∧ s.block.keyLen = 32 ∧ (s.block.bufLen ≠ 0 → roundsValid s.block.rounds = true) ∧
      bufferAdmitted s = false ∧ exec i s = .fault .bufferAddressNotAdmitted) := by
  cases i with
  | rotl a b n =>
    by_cases h : 1 ≤ n.toNat ∧ n.toNat ≤ 31
    · right; left
      refine ⟨nofun, ?_⟩
      simp only [exec, execRotl, registerEffect, dif_pos h]
      rfl
    · left
      refine ⟨.eRot, ⟨a, b, n, rfl, h⟩, ?_⟩
      simp only [exec, execRotl, dif_neg h]
  | qr a b c d =>
    by_cases h : distinctIndices a b c d = true
    · right; left
      refine ⟨nofun, ?_⟩
      simp only [exec, execQr, registerEffect, if_pos h]
    · left
      refine ⟨.eCmd, by simpa [raisesCause, Instr.wf] using h, ?_⟩
      simp only [exec, execQr, if_neg h]
  | init =>
    by_cases h : s.block.keyLen = 32
    · right; left
      refine ⟨nofun, ?_⟩
      simp only [exec, execInit, (keyLenValid_iff _).2 h, if_true]
      rfl
    · left
      refine ⟨.eKeyLen, ⟨h, by simp⟩, ?_⟩
      simp only [exec, execInit, (keyLenValid_eq_false_iff _).2 h]
      rfl
  | copy => right; left; exact ⟨nofun, rfl⟩
  | permute =>
    by_cases h : roundsValid s.block.rounds = true
    · right; left
      refine ⟨nofun, ?_⟩
      simp only [exec, execPermute, h, if_true]
      rfl
    · left
      have h' : roundsValid s.block.rounds = false := by simpa using h
      refine ⟨.eRounds, ⟨h', by simp⟩, ?_⟩
      simp only [exec, execPermute, h']
      rfl
  | final => right; left; exact ⟨nofun, rfl⟩
  | block =>
    by_cases hk : s.block.keyLen = 32
    · by_cases h : roundsValid s.block.rounds = true
      · right; left
        refine ⟨nofun, ?_⟩
        simp only [exec, execBlock, (keyLenValid_iff _).2 hk, h, if_true, buildBlock_eq]
        rfl
      · left
        have h' : roundsValid s.block.rounds = false := by simpa using h
        refine ⟨.eRounds, ⟨h', by simp [hk]⟩, ?_⟩
        simp only [exec, execBlock, (keyLenValid_iff _).2 hk, h', if_true]
        rfl
    · left
      refine ⟨.eKeyLen, ⟨hk, by simp⟩, ?_⟩
      simp only [exec, execBlock, (keyLenValid_eq_false_iff _).2 hk]
      rfl
  | cipher =>
    by_cases hk : s.block.keyLen = 32
    · by_cases hr : s.block.bufLen ≠ 0 ∧ roundsValid s.block.rounds = false
      · left
        refine ⟨.eRounds, ⟨hr.2, .inr (.inr ⟨rfl, hk, hr.1⟩)⟩, ?_⟩
        simp only [exec, execCipher, (keyLenValid_iff _).2 hk, if_true, if_pos hr]
      · have hr' : s.block.bufLen ≠ 0 → roundsValid s.block.rounds = true := fun hl => by
          by_contra hv
          exact hr ⟨hl, by simpa using hv⟩
        right; right
        by_cases ha : bufferAdmitted s = true
        · left
          exact ⟨rfl, ⟨hk, hr', ha⟩, execCipher_of_runs ⟨hk, hr', ha⟩⟩
        · right
          have ha' : bufferAdmitted s = false := by simpa using ha
          refine ⟨rfl, hk, hr', ha', ?_⟩
          simp only [exec, execCipher, (keyLenValid_iff _).2 hk, if_true, if_neg hr, ha']
          rfl
    · left
      refine ⟨.eKeyLen, ⟨hk, by simp⟩, ?_⟩
      simp only [exec, execCipher, (keyLenValid_eq_false_iff _).2 hk]
      rfl
  | wipe => right; left; exact ⟨nofun, rfl⟩

/-- A command that gives a next state: the three ways, said of that state. -/
theorem exec_next_cases {i : Instr} {s t : State} (h : exec i s = .next t) :
    (∃ c, raisesCause i s c ∧ t = s.raise c (encode i)) ∨
    (i ≠ .cipher ∧ t = s.withBlock
      { s.block with x := (registerEffect i s.block).1, w := (registerEffect i s.block).2 }) ∨
    (i = .cipher ∧ cipherRuns s ∧ t = cipherEnd s (cipherBytes s.block.bufLen.toNat 0 (cipherStart s))) := by
  obtain ⟨c, hc, e⟩ | ⟨hi, e⟩ | ⟨hi, hr, e⟩ | ⟨hi, _, _, _, e⟩ := exec_cases i s <;>
    rw [h] at e
  · exact .inl ⟨c, hc, by simpa using e⟩
  · exact .inr (.inl ⟨hi, by simpa using e⟩)
  · exact .inr (.inr ⟨hi, hr, by simpa using e⟩)
  · simp at e

/-- A command that gives no next state. -/
theorem exec_stops {i : Instr} {s : State} (h : ∀ t, exec i s ≠ .next t) :
    i = .cipher ∧ s.block.keyLen = 32 ∧ (s.block.bufLen ≠ 0 → roundsValid s.block.rounds = true) ∧
      bufferAdmitted s = false ∧ exec i s = .fault .bufferAddressNotAdmitted := by
  obtain ⟨c, hc, e⟩ | ⟨hi, e⟩ | ⟨hi, hr, e⟩ | h' := exec_cases i s
  · exact absurd e (h _)
  · exact absurd e (h _)
  · exact absurd e (h _)
  · exact h'

/-- Every register the host can write, by its word index (46_system.md R233). -/
theorem regAt_index (r : HostReg) : regAt r.index = some r := by
  cases r with
  | keyw j => revert j; decide
  | noncew j => revert j; decide
  | x i => revert i; decide
  | w i => revert i; decide
  | _ => rfl

/-- A host write: ignored while faulted; else it issues a command, writes one register, or is ignored
(46_system.md R233). -/
theorem hostWrite_cases (k : Fin 64) (v : Word) (s : State) :
    (s.block.fault = true ∧ hostWrite k v s = .next s) ∨
    (s.block.fault = false ∧ regAt k = none ∧ hostWrite k v s = .next s) ∨
    (s.block.fault = false ∧ regAt k = some .cmd ∧ hostWrite k v s = issue v s) ∨
    (∃ r, s.block.fault = false ∧ regAt k = some r ∧ r ≠ .cmd ∧
      hostWrite k v s = .next (s.withBlock (writeReg s.block r v))) := by
  cases hf : s.block.fault with
  | true => left; simp [hostWrite, hf]
  | false =>
    right
    cases hr : regAt k with
    | none => left; simp [hostWrite, hf, hr]
    | some r =>
      by_cases hc : r = .cmd
      · right; left; subst hc; simp [hostWrite, hf, hr]
      · right; right
        refine ⟨r, rfl, rfl, hc, ?_⟩
        cases r <;> first | exact absurd rfl hc | simp [hostWrite, hf, hr]

/-- Only word index 0 is CMD. -/
theorem regAt_eq_cmd_iff (k : Fin 64) : regAt k = some .cmd ↔ k = 0 := by
  revert k; decide

/-- Command issue: E_CMD on an illegal word, else the command (46_system.md R234). -/
theorem issue_cases (w : Word) (s : State) :
    (∃ why, decode w = .illegal why ∧ issue w s = .next (s.raise .eCmd w)) ∨
    (∃ i, decode w = .cmd i ∧ issue w s = exec i s) := by
  cases h : decode w with
  | cmd i => right; exact ⟨i, rfl, by simp [issue, h]⟩
  | illegal why => left; exact ⟨why, rfl, by simp [issue, h]⟩

theorem step_nil {s : State} (h : s.host = []) : step s = .next s := by simp [step, h]

theorem step_cons {s : State} {act : HostAction} {rest : List HostAction} (h : s.host = act :: rest) :
    step s = hostAct act { s with host := rest } := by simp [step, h]

/-- Everything a step can do to the block: nothing, reset, one register write, E_CMD on an illegal word, or a command
(46_system.md R233, R234; 70_reset_and_hazards.md R270). -/
theorem step_block_cases {s t : State} (h : step s = .next t) :
    (t.block = s.block) ∨ (t.block = Block.reset) ∨
    (∃ r v, s.block.fault = false ∧ t.block = writeReg s.block r v ∧ t.mem = s.mem) ∨
    (∃ w rest why, s.host = .write 0 w :: rest ∧ s.block.fault = false ∧ decode w = .illegal why ∧
      t = State.raise { s with host := rest } .eCmd w) ∨
    (∃ w i rest, s.host = .write 0 w :: rest ∧ s.block.fault = false ∧ decode w = .cmd i ∧
      exec i { s with host := rest } = .next t) := by
  cases hh : s.host with
  | nil => rw [step_nil hh] at h; simp at h; subst h; exact .inl rfl
  | cons act rest =>
    rw [step_cons hh] at h
    cases act with
    | reset => simp [hostAct] at h; subst h; exact .inr (.inl rfl)
    | read k => simp [hostAct, State.returned] at h; subst h; exact .inl rfl
    | load a => simp only [hostAct] at h; split at h <;> simp [State.returned] at h; subst h; exact .inl rfl
    | store a v => simp only [hostAct] at h; split at h <;> simp at h; subst h; exact .inl rfl
    | write k v =>
      simp only [hostAct] at h
      obtain ⟨_, e⟩ | ⟨_, _, e⟩ | ⟨hf, hk, e⟩ | ⟨r, hf, _, _, e⟩ := hostWrite_cases k v { s with host := rest }
      · rw [e] at h; simp at h; subst h; exact .inl rfl
      · rw [e] at h; simp at h; subst h; exact .inl rfl
      · rw [e] at h
        rw [regAt_eq_cmd_iff] at hk; subst hk
        obtain ⟨why, hd, e'⟩ | ⟨i, hd, e'⟩ := issue_cases v { s with host := rest }
        · rw [e'] at h; simp at h; subst h
          exact .inr (.inr (.inr (.inl ⟨v, rest, why, rfl, hf, hd, rfl⟩)))
        · rw [e'] at h
          exact .inr (.inr (.inr (.inr ⟨v, i, rest, rfl, hf, hd, h⟩)))
      · rw [e] at h; simp at h; subst h
        exact .inr (.inr (.inl ⟨r, v, hf, rfl, rfl⟩))

/-- A register write touches neither STATUS nor FCMD nor the counts (10_state.md R42). -/
theorem writeReg_status (b : Block) (r : HostReg) (v : Word) :
    (writeReg b r v).fault = b.fault ∧ (writeReg b r v).cause = b.cause ∧ (writeReg b r v).fcmd = b.fcmd ∧
      (writeReg b r v).cctr = b.cctr ∧ (writeReg b r v).nblk = b.nblk := by
  cases r <;> exact ⟨rfl, rfl, rfl, rfl, rfl⟩

end Sys2Proof.Machine
end

