-- ==== Sys2Proof/Tests/Slice0.lean ====
section
/-! SUPPORT. Tests of the model, with expected values from spec/95_test_vectors.md (V and P numbers), and for every
obligation with hypotheses a witness: a concrete state and operands that meet them together. -/

open Sys2Proof Sys2Proof.Machine

namespace Sys2Proof.Tests

/-! ### States and helpers -/

/-- The reset state with another block. -/
def stWith (b : Block) : State := { State.reset with block := b }

/-- The reset state with `act` as the host's next action, faulted with E_ROT on the word of V61 or not. -/
def stHost (faulted : Bool) (act : HostAction) : State :=
  { State.reset with
    host := [act],
    block := { Block.reset with
      fault := faulted, cause := if faulted then 1 else 0, fcmd := if faulted then 0x01100020 else 0 } }

/-- The block with KEY = 00..1F, NONCE = NA, CTR = 1, KEY_LEN = 32 and ROUNDS = `r` (V40). -/
def blockA (r : Word) : Block :=
  { Block.reset with
    key := Vector.ofFn fun j : Fin 32 => BitVec.ofNat 8 j.val,
    nonce := #v[0, 0, 0, 9, 0, 0, 0, 0x4A, 0, 0, 0, 0], ctr := 1, keyLen := 32, rounds := r }

/-- The machine of V50 to V57 over a working buffer, with ROUNDS = `r`. -/
def cipherSt (r addr len : Word) (mem : Memory) : State :=
  { State.reset with block := { blockA r with bufAddr := addr, bufLen := len }, mem := mem }

/-- The result is a next state in which `p` holds. -/
def nextIs (r : Result) (p : State → Bool) : Bool :=
  match r with
  | .next t => p t
  | .fault _ => false
  | .refused _ => false

theorem exists_of_nextIs {r : Result} {p : State → Bool} (h : nextIs r p = true) : ∃ t, r = .next t ∧ p t = true := by
  cases r with
  | next t => exact ⟨t, rfl, h⟩
  | fault f => exact absurd h nofun
  | refused f => exact absurd h nofun

/-- The result is the fault `f`. -/
def stopsAs (r : Result) (f : Fault) : Bool :=
  match r with
  | .next _ => false
  | .fault g => g == f
  | .refused _ => false

theorem fault_of_stopsAs {r : Result} {f : Fault} (h : stopsAs r f = true) : r = .fault f := by
  cases r with
  | next t => exact absurd h nofun
  | fault g => exact congrArg _ (by simpa [stopsAs] using h)
  | refused g => exact absurd h nofun

/-- STATUS and FCMD as the host reads them. -/
def statusIs (status fcmd : Word) (t : State) : Bool := hostRead 1 t.block == status && hostRead 2 t.block == fcmd

/-- The step after the host writes `w` to CMD. -/
def stepOn (s : State) (w : Nat) : Result := step (s.withFetchWord 32 w)

/-! ### Well-formedness: one ill-formed term for each of the six inequalities of R94 -/

theorem test_wf_refuses_a_eq_b : (Instr.qr 5 5 1 2).wf = false := by decide
theorem test_wf_refuses_a_eq_c : (Instr.qr 5 1 5 2).wf = false := by decide
theorem test_wf_refuses_a_eq_d : (Instr.qr 5 1 2 5).wf = false := by decide
theorem test_wf_refuses_b_eq_c : (Instr.qr 1 5 5 2).wf = false := by decide
theorem test_wf_refuses_b_eq_d : (Instr.qr 1 5 2 5).wf = false := by decide
theorem test_wf_refuses_c_eq_d : (Instr.qr 1 2 5 5).wf = false := by decide
theorem test_wf_admits_illegal_amount : (Instr.rotl 1 0 0).wf = true := by decide

/-! ### Decoding: words written out from the encodings of R93 (V83), and the illegal words of V66 to V79 -/

theorem test_decode_rotl_bits : decode 0b00000001000100000000000000000111 = .cmd (.rotl 1 0 7) := by decide
theorem test_decode_rotl_last : decode 0x01FF001F = .cmd (.rotl 15 15 31) := by decide
theorem test_decode_qr_bits : decode 0b00000010001101001001111000000000 = .cmd (.qr 3 4 9 14) := by decide
theorem test_decode_qr_last : decode 0x02FEDC00 = .cmd (.qr 15 14 13 12) := by decide
theorem test_decode_init_bits : decode 0b00010000000000000000000000000000 = .cmd .init := by decide
theorem test_decode_copy_bits : decode 0b00010001000000000000000000000000 = .cmd .copy := by decide
theorem test_decode_permute_bits : decode 0b00010010000000000000000000000000 = .cmd .permute := by decide
theorem test_decode_final_bits : decode 0b00010011000000000000000000000000 = .cmd .final := by decide
theorem test_decode_block_bits : decode 0b00010100000000000000000000000000 = .cmd .block := by decide
theorem test_decode_cipher_bits : decode 0b00100000000000000000000000000000 = .cmd .cipher := by decide
theorem test_decode_wipe_bits : decode 0b00110000000000000000000000000000 = .cmd .wipe := by decide
theorem test_decode_repeated_index : decode 0x02001200 = .illegal .repeatedIndex := by decide
theorem test_decode_qr_imm8 : decode 0x02012301 = .illegal .reservedFieldSet := by decide
theorem test_decode_rotl_c : decode 0x01101000 = .illegal .reservedFieldSet := by decide
theorem test_decode_init_imm8 : decode 0x10000001 = .illegal .reservedFieldSet := by decide
theorem test_decode_unlisted :
    ([0x00000000, 0xFFFFFFFF, 0x03000000, 0x15000000, 0x21000000, 0x31000000] : List Word).all
      (fun w => decode w == .illegal .unlistedOpcode) = true := by decide +kernel
theorem test_encode_rotl : encode (.rotl 4 0 16) = 0x01400010 := by decide
theorem test_encode_qr : encode (.qr 2 7 8 13) = 0x02278D00 := by decide
theorem test_table_word : decodeTableWord 32 0x02012300 = some (.qr 0 1 2 3) := by decide

/-! ### Packing and rotation (V2, V3, V6, V11, V14, V15, V16) -/

theorem test_rotl32_31 : rotl32 0xDEADBEEF ⟨31, by decide⟩ = 0xEF56DF77 := by decide +kernel
theorem test_pack : pack32le 0x65 0x78 0x70 0x61 = 0x61707865 := by decide +kernel
theorem test_unpack : unpack32le 0xE4E7F110 = (0x10, 0xF1, 0xE7, 0xE4) := by decide +kernel
theorem test_bswap : bswap32 0x11223344 = 0x44332211 := by decide +kernel

/-! ### The commands -/

/-- V6 as a command: the source word stays. -/
theorem test_rotl_v6 :
    nextIs (stepOn (stWith (Block.reset.setW 0 0x12345678)) 0x01100007)
      (fun t => t.block.w[1] == 0x1A2B3C09 && t.block.w[0] == 0x12345678) = true := by decide +kernel

/-- V61: amount 32. -/
theorem test_rotl_v61 :
    nextIs (stepOn (stWith (Block.reset.setW 0 0x12345678)) 0x01100020)
      (fun t => statusIs 0x00000101 0x01100020 t && t.block.w[1] == 0) = true := by decide +kernel

/-- V21. -/
theorem test_qr_v21 : quarterRound 0x11111111 0x01020304 0x9B8D6F43 0x01234567 =
    (0xEA2A92F4, 0xCB1CF8CE, 0x4581472E, 0x5881C4BB) := by decide +kernel

/-- V28: operand order matters. -/
theorem test_qr_v28 :
    nextIs (stepOn (stWith { Block.reset with w :=
        #v[0x11111111, 0x01020304, 0x9B8D6F43, 0x01234567, 0, 0, 0, 0, 0, 0, 0, 0, 0, 0, 0, 0] }) 0x02321000)
      (fun t => t.block.w == #v[0x1495DC09, 0xBB536CAE, 0x5687BEDA, 0xACAF187D, 0, 0, 0, 0, 0, 0, 0, 0, 0, 0, 0, 0]) =
        true := by decide +kernel

/-- V30. -/
theorem test_init_v30 :
    nextIs (stepOn (stWith (blockA 20)) 0x10000000)
      (fun t => t.block.x == #v[0x61707865, 0x3320646E, 0x79622D32, 0x6B206574, 0x03020100, 0x07060504, 0x0B0A0908,
        0x0F0E0D0C, 0x13121110, 0x17161514, 0x1B1A1918, 0x1F1E1D1C, 0x00000001, 0x09000000, 0x4A000000, 0]) =
        true := by decide +kernel

/-- V80: KEY_LEN = 0. -/
theorem test_init_v80 : nextIs (stepOn State.reset 0x10000000) (statusIs 0x00000201 0x10000000) = true := by decide +kernel

/-- V32 (COPY copies whatever X holds). -/
theorem test_copy : nextIs (stepOn (stWith (Block.reset.setX 15 7)) 0x11000000)
    (fun t => t.block.w[15] == 7 && t.block.x[15] == 7) = true := by decide +kernel

/-- V31: two rounds on the all-zero key's matrix. -/
theorem test_permute_v31 :
    nextIs (stepOn (stWith { Block.reset with rounds := 2, w :=
        #v[0x61707865, 0x3320646E, 0x79622D32, 0x6B206574, 0, 0, 0, 0, 0, 0, 0, 0, 0, 0, 0, 0] }) 0x12000000)
      (fun t => t.block.w == #v[0xE45FD249, 0x1BB820A6, 0xE31A88EA, 0xE667A9FE, 0x2A3BF673, 0x86BF4098, 0x460B500A,
        0xFA169886, 0x538DCA0E, 0x0C439641, 0x00FA16BC, 0x8A08812A, 0x6BBF8B09, 0xC33013D6, 0xBB9F9849,
        0x87C62165]) = true := by decide +kernel

/-- V72: ROUNDS = -20. -/
theorem test_permute_v72 : nextIs (stepOn (stWith { Block.reset with rounds := 0xFFFFFFEC }) 0x12000000)
    (statusIs 0x00000301 0x12000000) = true := by decide +kernel

/-- V35: the sums wrap. -/
theorem test_final_v35 :
    nextIs (stepOn (stWith (((((Block.reset.setX 0 0xFFFFFFFF).setW 0 1).setX 1 0x80000000).setW 1 0x80000000).setX 2
        5 |>.setW 2 7)) 0x13000000)
      (fun t => t.block.x[0] == 0 && t.block.x[1] == 0 && t.block.x[2] == 0xC && t.block.w[2] == 7) = true := by decide +kernel

/-- V40: the known-answer case of the source. -/
theorem test_block_v40 :
    nextIs (stepOn (stWith (blockA 20)) 0x14000000)
      (fun t => t.block.x == #v[0xE4E7F110, 0x15593BD1, 0x1FDD0F50, 0xC47120A3, 0xC7F4D1C7, 0x0368C033, 0x9AAA2204,
        0x4E6CD4C3, 0x466482D2, 0x09AA9F07, 0x05D7C214, 0xA2028BD9, 0xD19C12B5, 0xB94E16DE, 0xE883D0CB,
        0x4E3C50A2] && t.block.w[0] == 0x837778AB && keystreamByte t.block.x 1 == 0xF1) = true := by decide +kernel

/-- V71: E_KEYLEN wins over E_ROUNDS. -/
theorem test_block_v71 : nextIs (stepOn (stWith { Block.reset with keyLen := 31, rounds := 21 }) 0x14000000)
    (statusIs 0x00000201 0x14000000) = true := by decide +kernel

/-- V56, second part: an odd address, five bytes of text; a byte that follows the buffer stays. -/
theorem test_cipher_v56_text :
    nextIs (stepOn (cipherSt 20 0x2003 5
        [(0x2003, 0x48), (0x2004, 0x65), (0x2005, 0x6C), (0x2006, 0x6C), (0x2007, 0x6F), (0x2008, 0xAA)]) 0x20000000)
      (fun t => t.mem == [(0x2003, 0x58), (0x2004, 0x94), (0x2005, 0x8B), (0x2006, 0x88), (0x2007, 0xBE),
        (0x2008, 0xAA)] && t.block.nblk == 1 && t.block.cctr == 2) = true := by decide +kernel

/-- V56, first part: the buffer wraps around the top of the address space. -/
theorem test_cipher_v56_wrap :
    nextIs (stepOn (cipherSt 20 0xFFFFFFFE 4 []) 0x20000000)
      (fun t => t.mem == [(0, 0xE7), (1, 0xE4), (0xFFFFFFFE, 0x10), (0xFFFFFFFF, 0xF1)]) = true := by decide +kernel

/-- V58: WIPE clears X and W and keeps the key. -/
theorem test_wipe_v58 :
    nextIs (stepOn (stWith (((blockA 20).setX 3 5).setW 4 6)) 0x30000000)
      (fun t => t.block.x == Vector.replicate 16 0 && t.block.w == Vector.replicate 16 0 &&
        hostRead 16 t.block == 0x03020100) = true := by decide +kernel

/-! ### Faults and the host's actions -/

/-- V66, V77, V79: illegal words. -/
theorem test_illegal_words : ∀ w ∈ [0x02001200, 0xFFFFFFFF, 0x15000000],
    nextIs (stepOn State.reset w) (statusIs 0x00000401 (BitVec.ofNat 32 w)) = true := by decide +kernel

/-- V82: the faulted block ignores a write and a command, and reset leaves the faulted state. -/
theorem test_faulted_v82 :
    nextIs (step (stHost true (.write 48 0xDEADBEEF))) (fun t => t.block.w[0] == 0 && t.block.fault) = true ∧
    nextIs (step (stHost true (.write 0 0x01100007))) (statusIs 0x00000101 0x01100020) = true ∧
    nextIs (step (stHost true .reset)) (statusIs 0 0) = true := by decide +kernel

/-- V59: byte lanes of the key registers. -/
theorem test_keyw_v59 : nextIs (step (stHost false (.write 16 0x03020100)))
    (fun t => t.block.key[0] == 0 && t.block.key[1] == 1 && t.block.key[3] == 3 && hostRead 16 t.block == 0x03020100) =
      true := by decide +kernel

/-- V59: a reserved offset and a read-only register ignore a write. -/
theorem test_ignored_writes : ∀ k ∈ ([1, 2, 8, 9, 10, 15, 27, 31] : List (Fin 64)),
    nextIs (step (stHost false (.write k 0xFFFFFFFF))) (fun t => t.block == Block.reset) = true := by decide +kernel

/-- 20_memory.md R72: no step over an address that is not admitted. -/
theorem test_unadmitted :
    stepOn { cipherSt 20 0x1000 2 [] with map := [⟨0x1000, 1⟩] } 0x20000000 = .fault .bufferAddressNotAdmitted :=
  fault_of_stopsAs (by decide +kernel)

/-- Writing the byte an unlisted address reads as removes the entry (log 3). -/
theorem test_memory_canonical : Memory.writeByte [(1, 2), (5, 6)] 5 0 = [(1, 2)] ∧
    Memory.writeByte [(1, 2), (5, 6)] 3 4 = [(1, 2), (3, 4), (5, 6)] := by decide +kernel

/-! ### Witnesses: the hypotheses of each obligation, met together -/

theorem witness_DecodeOfEncodeIsTheCommand : (Instr.qr 0 5 10 15).wf = true ∧ (Instr.rotl 15 15 255).wf = true := by
  decide

theorem witness_EncodeOfDecodeIsTheWord : decode 0x02349E00 = .cmd (.qr 3 4 9 14) := by decide

theorem witness_DecodeFollowsTheOpcodeTable :
    (0x15000000 : Word).toNat / 2 ^ 24 ∉ [0x01, 0x02, 0x10, 0x11, 0x12, 0x13, 0x14, 0x20, 0x30] := by decide

theorem witness_OperandsAreTheNamedBits :
    decode 0x01FF001F = .cmd (.rotl 15 15 31) ∧ decode 0x02FEDC00 = .cmd (.qr 15 14 13 12) := by decide

theorem witness_StepRunsTheDecodedCommand :
    (∃ rest, (stHost false (.write 0 0x01100000)).host = .write 0 0x01100000 :: rest) ∧
    (stHost false (.write 0 0x01100000)).block.fault = false ∧ decode 0x01100000 = .cmd (.rotl 1 0 0) ∧
    (∃ t, step (stHost false (.write 0 0x01100000)) = .next t ∧ t.block.fault = true) ∧
    decode 0x00000000 = .illegal .unlistedOpcode ∧ (stHost true (.write 0 0x01100000)).block.fault = true :=
  ⟨⟨_, rfl⟩, rfl, by decide, exists_of_nextIs (p := fun t => t.block.fault) (by decide), by decide, rfl⟩

/-- A word of no row (V79) and a QR word with equal indices (V66). -/
theorem witness_WordsWithoutCommandRaiseECmd :
    ([0x15000000, 0x02001200, 0x01101000, 0x10000001] : List Word).all (fun w =>
      w &&& 0xFF00FF00 != 0x01000000 &&
      !(w &&& 0xFF0000FF == 0x02000000 &&
        decide [w.toNat / 2 ^ 20 % 16, w.toNat / 2 ^ 16 % 16, w.toNat / 2 ^ 12 % 16, w.toNat / 2 ^ 8 % 16].Nodup) &&
      !([0x10000000, 0x11000000, 0x12000000, 0x13000000, 0x14000000, 0x20000000, 0x30000000] : List Word).elem w) = true ∧
    (stHost false (.write 0 0x02001200)).host = .write 0 0x02001200 :: [] ∧
    (stHost false (.write 0 0x02001200)).block.fault = false := by decide

theorem witness_WipeZeroesXAndW :
    (stHost true (.write 0 0x30000000)).host = .write 0 0x30000000 :: [] ∧
      (stHost true (.write 0 0x30000000)).block.fault = true := by decide

theorem witness_FaultedBlockIsFrozen :
    (stHost true (.write 48 1)).host = .write 48 1 :: [] ∧ (stHost true (.read 63)).host = .read 63 :: [] ∧
      (stHost true (.read 63)).block.fault = true ∧ HostAction.read 63 ≠ .reset ∧
      (∃ t, step (stHost true (.read 63)) = .next t ∧ t.reads = [0]) :=
  ⟨rfl, rfl, rfl, by decide, _, rfl, rfl⟩

theorem witness_OnlyResetClearsFault :
    (∃ t, (stHost true .reset).block.fault = true ∧ step (stHost true .reset) = .next t ∧ t.block.fault = false) ∧
    (∃ t, (stHost true (.write 48 1)).block.fault = true ∧ step (stHost true (.write 48 1)) = .next t ∧
      t.block.fault = true) :=
  ⟨⟨_, rfl, rfl, rfl⟩, ⟨_, rfl, rfl, rfl⟩⟩

theorem witness_ResetActionZeroesTheBlock : (stHost true .reset).host = .reset :: [] := rfl

theorem witness_CommandsRightAfterReset :
    (∀ n ∈ ([1, 31] : List Byte), 1 ≤ n.toNat ∧ n.toNat ≤ 31) ∧ distinctIndices 0 4 8 12 = true := by decide

theorem witness_HostReadFollowsTheRegisterMap :
    (16 : Fin 64).val = 16 + (0 : Fin 8).val ∧ (23 : Fin 64).val = 16 + (7 : Fin 8).val ∧
    (24 : Fin 64).val = 24 + (0 : Fin 3).val ∧ (26 : Fin 64).val = 24 + (2 : Fin 3).val ∧
    (32 : Fin 64).val = 32 + (0 : WIndex).val ∧ (47 : Fin 64).val = 32 + (15 : WIndex).val ∧
    (48 : Fin 64).val = 48 + (0 : WIndex).val ∧ (63 : Fin 64).val = 48 + (15 : WIndex).val ∧
    (∀ k ∈ ([10, 15, 27, 31] : List (Fin 64)), (10 ≤ k.val ∧ k.val ≤ 15) ∨ (27 ≤ k.val ∧ k.val ≤ 31)) ∧
    (stHost true (.read 63)).host = .read 63 :: [] := by decide

theorem witness_HostWriteFollowsTheRegisterMap :
    (∀ k : Fin 64, (stHost false (.write k 5)).host = .write k 5 :: [] ∧ (stHost false (.write k 5)).block.fault = false ∧
      (stHost true (.write k 5)).host = .write k 5 :: [] ∧ (stHost true (.write k 5)).block.fault = true) ∧
    (∀ k ∈ ([16, 23] : List (Fin 64)), 16 ≤ k.val ∧ k.val ≤ 23) ∧
    (∀ k ∈ ([24, 26] : List (Fin 64)), 24 ≤ k.val ∧ k.val ≤ 26) ∧
    (32 : Fin 64).val = 32 + (0 : WIndex).val ∧ (47 : Fin 64).val = 32 + (15 : WIndex).val ∧
    (48 : Fin 64).val = 48 + (0 : WIndex).val ∧ (63 : Fin 64).val = 48 + (15 : WIndex).val ∧
    (∀ k ∈ ([1, 2, 8, 9, 10, 15, 27, 31] : List (Fin 64)),
      k.val = 1 ∨ k.val = 2 ∨ k.val = 8 ∨ k.val = 9 ∨ (10 ≤ k.val ∧ k.val ≤ 15) ∨ (27 ≤ k.val ∧ k.val ≤ 31)) := by
  refine ⟨fun k => ⟨rfl, rfl, rfl, rfl⟩, ?_⟩
  decide

theorem witness_KeyAndNonceByteLanes : (27 : Fin 32).val / 4 ≠ (7 : Fin 8).val ∧ (4 : Fin 12).val / 4 ≠ (0 : Fin 3).val := by
  decide

theorem witness_ReservedAndReadOnlyOffsets :
    (∀ k ∈ ([0, 10, 15, 27, 31] : List (Fin 64)),
      k.val = 0 ∨ (10 ≤ k.val ∧ k.val ≤ 15) ∨ (27 ≤ k.val ∧ k.val ≤ 31)) ∧
    (∀ k ∈ ([1, 2, 8, 9, 10, 15, 27, 31] : List (Fin 64)),
      k.val = 1 ∨ k.val = 2 ∨ k.val = 8 ∨ k.val = 9 ∨ (10 ≤ k.val ∧ k.val ≤ 15) ∨ (27 ≤ k.val ∧ k.val ≤ 31)) := by
  decide

theorem witness_StatusFieldsAndValues :
    Block.reset.statusOk = true ∧
      ∀ c ∈ ([1, 2, 3, 4] : List (BitVec 4)), ({ Block.reset with fault := true, cause := c } : Block).statusOk = true := by
  decide

theorem witness_HostStoreThenLoadReturnsTheByte :
    admits State.reset.map 0xFFFFFFFF = true ∧
      ({ State.reset with host := [.store 0xFFFFFFFF 0, .load 0xFFFFFFFF] } : State).host =
        .store 0xFFFFFFFF 0 :: .load 0xFFFFFFFF :: [] := by decide

theorem witness_IdleBlockWaits : State.reset.host = [] := rfl

theorem witness_RotlRotatesOrFaults :
    (∀ n ∈ ([1, 31] : List Byte), 1 ≤ n.toNat ∧ n.toNat ≤ 31) ∧
      ∀ n ∈ ([0, 32, 255] : List Byte), n.toNat = 0 ∨ 32 ≤ n.toNat := by decide

theorem witness_RotationMovesBits : 0 < 32 ∧ 31 < 32 := by decide

theorem witness_RotationLaws :
    (⟨31, by decide⟩ : RotAmount).val = (⟨1, by decide⟩ : RotAmount).val + (⟨30, by decide⟩ : RotAmount).val ∧
    (⟨31, by decide⟩ : RotAmount).val = 32 - (⟨1, by decide⟩ : RotAmount).val ∧
    (⟨1, by decide⟩ : RotAmount).val = 32 - (⟨31, by decide⟩ : RotAmount).val := by decide

theorem witness_QrIsTheQuarterRound : ([2, 7, 8, 13] : List WIndex).Nodup := by decide

theorem witness_QrWithEqualIndicesRaisesECmd :
    (∀ l ∈ ([[5, 5, 1, 2], [5, 1, 5, 2], [5, 1, 2, 5], [1, 5, 5, 2], [1, 5, 2, 5], [1, 2, 5, 5]] : List (List WIndex)),
      ¬l.Nodup) ∧
    (stHost false (.write 0 (encode (.qr 0 0 1 2)))).host = .write 0 (encode (.qr 0 0 1 2)) :: [] ∧
    (stHost false (.write 0 (encode (.qr 0 0 1 2)))).block.fault = false := by decide

theorem witness_RoundOrderIsImmaterial : colroundCmds.reverse.Perm colroundCmds ∧ diagroundCmds.reverse.Perm diagroundCmds :=
  ⟨List.reverse_perm _, List.reverse_perm _⟩

theorem witness_InitFillsTheMatrix : (blockA 20).keyLen = 32 ∧ Block.reset.keyLen ≠ 32 := by decide

theorem witness_PermuteRunsHalfTheRoundCount :
    ([2, 20, 0x7FFFFFFE] : List Word).all roundsValid = true ∧
    ([0, 1, 21, 0x7FFFFFFF, 0x80000000, 0xFFFFFFEC, 0xFFFFFFFE, 0xFFFFFFFF] : List Word).any roundsValid = false := by
  decide +kernel

theorem witness_PermuteEqualsIssuedDoubleRounds :
    (0 < 1 ∧ 2 * 1 < 2 ^ 31) ∧ (0 < 2 ^ 30 - 1 ∧ 2 * (2 ^ 30 - 1) < 2 ^ 31) := by decide

theorem witness_PermutationLaws :
    roundsValid 2 = true ∧ roundsValid 0x7FFFFFFC = true ∧ roundsValid 0x7FFFFFFE = true ∧
      (0x7FFFFFFE : Word).toNat = (2 : Word).toNat + (0x7FFFFFFC : Word).toNat := by decide

theorem witness_BlockBuildsTheKeystreamBlock : (blockA 20).keyLen = 32 ∧ roundsValid (blockA 20).rounds = true := by decide

theorem witness_BlockEqualsTheStageCommands :
    ((blockA 20).keyLen = 32 ∧ roundsValid (blockA 20).rounds = true) ∧
    ((blockA 21).keyLen = 32 ∧ roundsValid (blockA 21).rounds = false) ∧ Block.reset.keyLen ≠ 32 := by decide

/-- Two states with the same inputs and different X and W; BLOCK gives a next state from each. -/
theorem witness_BlockForgetsOldXAndW :
    ∃ s t s' t' : State, s.block.key = t.block.key ∧ s.block.nonce = t.block.nonce ∧ s.block.ctr = t.block.ctr ∧
      s.block.rounds = t.block.rounds ∧ s.block.keyLen = 32 ∧ t.block.keyLen = 32 ∧ roundsValid s.block.rounds = true ∧
      exec .block s = .next s' ∧ exec .block t = .next t' ∧ s.block.x ≠ t.block.x ∧ s.block.w ≠ t.block.w := by
  obtain ⟨s', hs, -⟩ := exists_of_nextIs (r := exec .block (stWith (blockA 2))) (p := fun _ => true) (by decide)
  obtain ⟨t', ht, -⟩ := exists_of_nextIs (r := exec .block (stWith (((blockA 2).setX 0 1).setW 0 1)))
    (p := fun _ => true) (by decide)
  exact ⟨_, _, s', t', by decide, by decide, by decide, by decide, by decide, by decide, by decide, hs, ht, by decide,
    by decide⟩

/-- Every reset address is admitted. -/
theorem admits_reset (a : Addr) : admits State.reset.map a = true := by
  rw [admits_iff]
  exact ⟨⟨0, 2 ^ 32⟩, by decide, Nat.zero_le _, by have := a.isLt; omega⟩

theorem witness_CipherXorsTheKeystream :
    (cipherSt 20 0xFFFFFFFE 130 []).block.keyLen = 32 ∧
    ((cipherSt 20 0xFFFFFFFE 130 []).block.bufLen ≠ 0 → roundsValid (cipherSt 20 0xFFFFFFFE 130 []).block.rounds = true) ∧
    (∀ i, i < (cipherSt 20 0xFFFFFFFE 130 []).block.bufLen.toNat →
      admits (cipherSt 20 0xFFFFFFFE 130 []).map
        ((cipherSt 20 0xFFFFFFFE 130 []).block.bufAddr + BitVec.ofNat 32 i) = true) ∧
    (0 < (cipherSt 20 0xFFFFFFFE 130 []).block.bufLen.toNat) ∧
    (∃ u, exec .block ((cipherSt 20 0xFFFFFFFE 130 []).withCtr 3) = .next u ∧ u.block.fault = false) ∧
    (cipherSt 21 0 0 []).block.bufLen = 0 :=
  ⟨by decide, by decide, fun i _ => admits_reset _, by decide,
    exists_of_nextIs (p := fun u => u.block.fault == false) (by decide +kernel) |>.imp fun _ h => ⟨h.1, by simpa using h.2⟩,
    by decide⟩

theorem witness_CipherOfAnEmptyBuffer :
    ((cipherSt 21 0 0 []).block.bufLen = 0 ∧ (cipherSt 21 0 0 []).block.keyLen = 32) ∧
    (State.reset.block.bufLen = 0 ∧ State.reset.block.keyLen ≠ 32) := by decide

theorem witness_CipherWithoutAdmissionHasNoStep :
    ((cipherSt 20 0x1000 2 []).block.keyLen = 32 ∧ roundsValid (cipherSt 20 0x1000 2 []).block.rounds = true ∧
      1 < (cipherSt 20 0x1000 2 []).block.bufLen.toNat ∧
      admits [⟨0x1000, 1⟩] ((cipherSt 20 0x1000 2 []).block.bufAddr + BitVec.ofNat 32 1) = false) ∧
    State.reset.block.keyLen ≠ 32 ∧
    ((cipherSt 21 0x1000 1 []).block.keyLen = 32 ∧ (cipherSt 21 0x1000 1 []).block.bufLen ≠ 0 ∧
      roundsValid (cipherSt 21 0x1000 1 []).block.rounds = false) := by decide

/-- A CIPHER that completes and one that faults; an address outside the buffer. -/
theorem witness_CipherFrame :
    (∃ t, exec .cipher (cipherSt 2 0x1000 1 []) = .next t ∧ t.block.fault = false) ∧
    (∃ t, exec .cipher (cipherSt 21 0x1000 1 []) = .next t ∧ t.block.fault = true) ∧
    (∀ i, i < (cipherSt 2 0x1000 1 []).block.bufLen.toNat →
      (0x1001 : Addr) ≠ bufferAddr (cipherSt 2 0x1000 1 []).block i) :=
  ⟨(exists_of_nextIs (p := fun t => t.block.fault == false) (by decide +kernel)).imp fun _ h => ⟨h.1, by simpa using h.2⟩,
    (exists_of_nextIs (p := fun t => t.block.fault) (by decide +kernel)), by decide⟩

theorem witness_CipherTwiceRestoresMemory :
    (∃ t, exec .cipher (cipherSt 2 0x1000 3 [(0x1001, 7)]) = .next t ∧ t.block.fault = false) ∧
      (cipherSt 2 0x1000 3 [(0x1001, 7)]).mem.wf = true :=
  ⟨(exists_of_nextIs (p := fun t => t.block.fault == false) (by decide +kernel)).imp fun _ h => ⟨h.1, by simpa using h.2⟩,
    by decide⟩

theorem witness_CipherContinuesAStream :
    ∃ t u : State, 64 % 64 = 0 ∧ 64 + 2 < 2 ^ 32 ∧ (cipherSt 2 0x1000 66 []).block.fault = false ∧
      (cipherSt 2 0x1000 66 []).block.bufLen = BitVec.ofNat 32 (64 + 2) ∧
      exec .cipher (cipherSt 2 0x1000 66 []) = .next u ∧ u.block.fault = false ∧
      exec .cipher ((cipherSt 2 0x1000 66 []).withBuffer (cipherSt 2 0x1000 66 []).block.bufAddr (BitVec.ofNat 32 64)) =
        .next t := by
  obtain ⟨u, hu, hf⟩ := exists_of_nextIs (r := exec .cipher (cipherSt 2 0x1000 66 [])) (p := fun t => t.block.fault == false)
    (by decide +kernel)
  obtain ⟨t, ht, -⟩ := exists_of_nextIs (r := exec .cipher ((cipherSt 2 0x1000 66 []).withBuffer
    (cipherSt 2 0x1000 66 []).block.bufAddr (BitVec.ofNat 32 64))) (p := fun _ => true) (by decide +kernel)
  exact ⟨t, u, rfl, by decide, rfl, rfl, hu, by simpa using hf, ht⟩

theorem witness_CipherRandomAccess :
    ∃ t u : State, (cipherSt 2 0x1000 66 []).block.fault = false ∧ 2 ≤ 64 ∧
      64 * 1 + 2 ≤ (cipherSt 2 0x1000 66 []).block.bufLen.toNat ∧
      exec .cipher (cipherSt 2 0x1000 66 []) = .next t ∧ t.block.fault = false ∧
      exec .cipher (((cipherSt 2 0x1000 66 []).withCtr ((cipherSt 2 0x1000 66 []).block.ctr + BitVec.ofNat 32 1)).withBuffer
        ((cipherSt 2 0x1000 66 []).block.bufAddr + BitVec.ofNat 32 (64 * 1)) (BitVec.ofNat 32 2)) = .next u ∧ 0 < 2 := by
  obtain ⟨t, ht, hf⟩ := exists_of_nextIs (r := exec .cipher (cipherSt 2 0x1000 66 [])) (p := fun t => t.block.fault == false)
    (by decide +kernel)
  obtain ⟨u, hu, -⟩ := exists_of_nextIs (r := exec .cipher (((cipherSt 2 0x1000 66 []).withCtr
    ((cipherSt 2 0x1000 66 []).block.ctr + BitVec.ofNat 32 1)).withBuffer
    ((cipherSt 2 0x1000 66 []).block.bufAddr + BitVec.ofNat 32 (64 * 1)) (BitVec.ofNat 32 2))) (p := fun _ => true)
    (by decide +kernel)
  exact ⟨t, u, rfl, by decide, by decide, ht, by simpa using hf, hu, by decide⟩

theorem witness_BufferAddressesWrapAndAreDistinct :
    3 < (cipherSt 20 0xFFFFFFFE 4 []).block.bufLen.toNat ∧
      bufferAddr (cipherSt 20 0xFFFFFFFE 4 []).block 3 = bufferAddr (cipherSt 20 0xFFFFFFFE 4 []).block 3 := by decide

theorem witness_KeyLengthFault :
    State.reset.block.keyLen ≠ 32 ∧ (31 : Word) ≠ 32 ∧ (33 : Word) ≠ 32 ∧
      Instr.wipe ≠ .init ∧ Instr.wipe ≠ .block ∧ Instr.wipe ≠ .cipher := by decide

theorem witness_RoundCountFault :
    (roundsValid Block.reset.rounds = false) ∧
    (roundsValid (blockA 21).rounds = false ∧ (blockA 21).keyLen = 32) ∧
    (roundsValid (cipherSt 21 0 1 []).block.rounds = false ∧ (cipherSt 21 0 1 []).block.keyLen = 32 ∧
      (cipherSt 21 0 1 []).block.bufLen ≠ 0) ∧
    Instr.copy ≠ .permute ∧ Instr.copy ≠ .block ∧ Instr.copy ≠ .cipher := by decide

/-- V68, V78 and V71: one witness for each clause, the second for each of its four opcodes at the lowest and the highest
reserved bits, the last for the amounts 0, 32 and 255. -/
theorem witness_FaultPriority :
    ((stHost false (.write 0 0x01101000)).host = .write 0 0x01101000 :: [] ∧
      (stHost false (.write 0 0x01101000)).block.fault = false ∧ (0x01101000 : Word).toNat / 2 ^ 24 = 0x01 ∧
      (0x01101000 : Word).toNat / 2 ^ 8 % 2 ^ 8 ≠ 0) ∧
    (((stHost false (.write 0 0x10000001)).host = .write 0 0x10000001 :: [] ∧
        (stHost false (.write 0 0x10000001)).block.fault = false) ∧
      ([0x10000001, 0x10FFFFFF, 0x12000001, 0x12FFFFFF, 0x14000001, 0x14800000, 0x20000001, 0x20FFFFFF] : List Word).all
        (fun w => (w.toNat / 2 ^ 24 == 0x10 || w.toNat / 2 ^ 24 == 0x12 || w.toNat / 2 ^ 24 == 0x14 ||
          w.toNat / 2 ^ 24 == 0x20) && w.toNat % 2 ^ 24 != 0) = true) ∧
    (State.reset.block.keyLen ≠ 32 ∧ roundsValid State.reset.block.rounds = false) ∧
    (∀ n ∈ ([0, 32, 255] : List Byte), n.toNat = 0 ∨ 32 ≤ n.toNat) := by decide

theorem witness_FaultsArePrecise :
    (∃ t, exec .init State.reset = .next t ∧ State.reset.block.fault = false ∧ t.block.fault = true) ∧
      (∃ t, exec .wipe State.reset = .next t ∧ State.reset.block.fault = false ∧ t.block.fault = false) :=
  ⟨⟨_, rfl, rfl, rfl⟩, ⟨_, rfl, rfl, rfl⟩⟩

/-- An unfaulted state whose step faults: the premise and both hypotheses. -/
theorem witness_StepKeepsTheFaultExplained :
    ((stHost false (.write 0 0x10000000)).block.fault = true → (stHost false (.write 0 0x10000000)).block.faultExplained) ∧
      ∃ t, step (stHost false (.write 0 0x10000000)) = .next t ∧ t.block.fault = true :=
  ⟨fun h => absurd h (by decide), exists_of_nextIs (p := fun t => t.block.fault) (by decide)⟩

/-- A faulted state that meets the premise. -/
theorem witness_faulted_explained : (stHost true (.write 48 1)).block.faultExplained :=
  .inl ⟨rfl, 1, 0, 32, by decide, .inr (by decide)⟩

theorem witness_StepKeepsTheInvariant :
    (stHost true (.store 5 9)).Inv ∧ ∃ t, step (stHost true (.store 5 9)) = .next t ∧ t.mem = [(5, 9)] :=
  ⟨⟨by decide, by decide, by decide⟩, _, rfl, by decide⟩

theorem witness_NoCommandWritesAParameter :
    ∃ t, exec .cipher (cipherSt 2 0x1000 1 []) = .next t ∧ t.block.nblk = 1 :=
  (exists_of_nextIs (p := fun t => t.block.nblk == 1) (by decide +kernel)).imp fun _ h => ⟨h.1, by simpa using h.2⟩

theorem witness_OnlyCipherTouchesMemoryAndCounters : Instr.wipe ≠ .cipher ∧ ∃ t, exec .wipe State.reset = .next t :=
  ⟨nofun, _, rfl⟩

theorem witness_WordFileFrames :
    (∃ t, exec (.rotl 1 0 7) State.reset = .next t ∧ (2 : WIndex) ≠ 1) ∧
    (∃ t, exec (.qr 0 1 2 3) State.reset = .next t ∧ (4 : WIndex) ∉ ([0, 1, 2, 3] : List WIndex)) ∧
    (∃ t, exec .copy State.reset = .next t) ∧ (∃ t, exec .final State.reset = .next t) ∧
    (∃ t, exec .wipe State.reset = .next t) :=
  ⟨⟨_, rfl, by decide⟩, ⟨_, rfl, by decide⟩, ⟨_, rfl⟩, ⟨_, rfl⟩, ⟨_, rfl⟩⟩

theorem witness_StepStopsOnlyWithoutAdmission :
    step { stHost false (.load 7) with map := [] } = .fault .hostAddressNotAdmitted ∧
    stepOn { cipherSt 20 0x1000 1 [] with map := [] } 0x20000000 = .fault .bufferAddressNotAdmitted :=
  ⟨fault_of_stopsAs (by decide), fault_of_stopsAs (by decide)⟩

end Sys2Proof.Tests
end

section
/-! Admission maps for arbitrary admission predicates (spec/00_scope.md R6, spec/20_memory.md R72; log 4): the address space is
finite, so the one-address ranges of the admitted addresses make up a list. -/

namespace Sys2Proof.Machine

/-- The one-address ranges of those addresses below `bound` that the predicate admits. -/
def singletonRegions (f : Addr → Bool) (bound : Nat) : List Region :=
  ((List.range bound).filter fun n => f (BitVec.ofNat 32 n)).map fun n => ⟨n, 1⟩

theorem mem_singletonRegions (f : Addr → Bool) (bound : Nat) (r : Region) :
    r ∈ singletonRegions f bound ↔ ∃ n, n < bound ∧ f (BitVec.ofNat 32 n) = true ∧ ⟨n, 1⟩ = r := by
  simp [singletonRegions, and_assoc]

/-- The bound is kept general: at `2 ^ 32`, unfolding the list would enumerate the whole address space. -/
theorem admits_singletonRegions (f : Addr → Bool) (bound : Nat) (a : Addr) :
    admits (singletonRegions f bound) a = true ↔ a.toNat < bound ∧ f a = true := by
  rw [admits_iff]
  constructor
  · rintro ⟨r, hr, hbase, hend⟩
    obtain ⟨n, hn, hf, rfl⟩ := (mem_singletonRegions f bound r).mp hr
    obtain rfl : n = a.toNat := by dsimp only at hbase hend; omega
    exact ⟨hn, by simpa using hf⟩
  · rintro ⟨hlt, hf⟩
    exact ⟨⟨a.toNat, 1⟩, (mem_singletonRegions f bound _).mpr ⟨a.toNat, hlt, by simpa using hf, rfl⟩,
      Nat.le_refl _, Nat.lt_succ_self _⟩

/-- Settles O59: the map is the list of one-address ranges of all admitted addresses. -/
theorem everyAdmissionPredicateIsAMap : Obligations.EveryAdmissionPredicateIsAMap := by
  intro f
  refine ⟨singletonRegions f (2 ^ 32), fun a => Bool.eq_iff_iff.mpr ?_⟩
  rw [admits_singletonRegions]
  exact and_iff_right a.isLt

end Sys2Proof.Machine
end

section
/-! The fields of STATUS and what keeps them well formed (spec/10_state.md R32, R33, R37; spec/60_exceptions.md R240, R247). -/

namespace Sys2Proof.Machine

/-- STATUS and FCMD are well formed independently of every register but FAULT, CAUSE and FCMD. -/
theorem statusOk_congr {b b' : Block} (hfault : b'.fault = b.fault) (hcause : b'.cause = b.cause)
    (hfcmd : b'.fcmd = b.fcmd) : b'.statusOk = b.statusOk := by
  simp only [Block.statusOk, hfault, hcause, hfcmd]

@[simp] theorem statusOk_enterFault (b : Block) (c : Cause) (word : Word) :
    (b.enterFault c word).statusOk = true := by
  cases c <;> rfl

@[simp] theorem statusOk_reset : Block.reset.statusOk = true := rfl

@[simp] theorem statusOk_writeReg (b : Block) (r : HostReg) (v : Word) : (writeReg b r v).statusOk = b.statusOk := by
  obtain ⟨hfault, hcause, hfcmd, -, -⟩ := writeReg_status b r v
  exact statusOk_congr hfault hcause hfcmd

/-- The five pairs of FAULT and CAUSE (10_state.md R32, 60_exceptions.md R240). -/
theorem statusOk_cases {b : Block} (h : b.statusOk = true) :
    (b.fault = false ∧ b.cause = 0) ∨
    (b.fault = true ∧ (b.cause = 1 ∨ b.cause = 2 ∨ b.cause = 3 ∨ b.cause = 4)) := by
  cases hfault : b.fault with
  | false =>
    simp only [Block.statusOk, hfault, Bool.false_eq_true, if_false, Bool.and_eq_true, beq_iff_eq] at h
    exact .inl ⟨rfl, h.1⟩
  | true => simpa [Block.statusOk, hfault, or_assoc] using h

/-- Offset 4 of the register space is STATUS (20_memory.md R61). -/
theorem hostRead_status (b : Block) : hostRead 1 b = statusWord b := rfl

theorem statusWord_eq (b : Block) :
    statusWord b = b.cause.setWidth 32 <<< 8 ||| (BitVec.ofBool b.fault).setWidth 32 := by
  cases h : b.fault <;> simp [statusWord, h]

/-- The bits of STATUS: `{0[31:12], CAUSE[3:0], 0[7:1], FAULT}` (10_state.md R32). -/
theorem statusWord_getLsbD (b : Block) (i : Nat) (hi : i < 32) :
    (statusWord b).getLsbD i = if i < 8 then decide (i = 0) && b.fault else b.cause.getLsbD (i - 8) := by
  rw [statusWord_eq]
  by_cases h : i < 8
  · simp [hi, h, BitVec.getLsbD_ofBool]
  · simp [hi, h, BitVec.getLsbD_ofBool, show i ≠ 0 by omega]

/-- Settles O16: the fields are read off the bits of STATUS, the values off the five pairs of FAULT and CAUSE. -/
theorem statusFieldsAndValues : Obligations.StatusFieldsAndValues := by
  intro b
  rw [hostRead_status]
  refine ⟨?_, ?_, ?_, ?_, fun hok => ?_⟩
  · rw [statusWord_getLsbD b 0 (by decide)]
    rfl
  · refine BitVec.eq_of_getLsbD_eq fun i hi => ?_
    simp [statusWord_getLsbD b (1 + i) (by omega), show 1 + i < 8 by omega]
  · refine BitVec.eq_of_getLsbD_eq fun i hi => ?_
    simp [statusWord_getLsbD b (8 + i) (by omega), hi]
  · refine BitVec.eq_of_getLsbD_eq fun i hi => ?_
    simp [statusWord_getLsbD b (12 + i) (by omega), show ¬ 12 + i < 8 by omega,
      BitVec.getLsbD_of_ge b.cause (12 + i - 8) (by omega)]
  · obtain ⟨hfault, hcause⟩ | ⟨hfault, hcause | hcause | hcause | hcause⟩ := statusOk_cases hok <;>
      simp [statusWord, hfault, hcause]

end Sys2Proof.Machine
end

section
/-! What a whole CIPHER command can write, and the frame of the other commands (spec/10_state.md R20, R24, R26 to R31, R34;
spec/20_memory.md R66; spec/45_keystream_cipher.md R210). -/

namespace Sys2Proof.Machine

/-- CIPHER writes X, W, CCTR, NBLK and buffer memory alone; NBLK counts the 64-byte chunks begun, and BUF_LEN is below 2^32
(10_state.md R34, 45_keystream_cipher.md R210). -/
theorem cipherEnd_effect (s : State) : ∃ x w cctr nblk mem,
    cipherEnd s (cipherBytes s.block.bufLen.toNat 0 (cipherStart s)) =
      { s with block := { s.block with x := x, w := w, cctr := cctr, nblk := nblk }, mem := mem } ∧
    nblk.toNat ≤ 2 ^ 26 ∧ (s.mem.wf = true → mem.wf = true) := by
  have hlen := s.block.bufLen.isLt
  obtain ⟨hblock, -, -, -, hnb, -, -, hwf⟩ := cipherBytes_spec s _ hlen
  refine ⟨_, _, _, _, _, by rw [cipherEnd, hblock], ?_, hwf⟩
  rw [hnb, BitVec.toNat_ofNat]
  omega

/-- Settles O55: fault entry, the register commands and CIPHER each leave the parameter registers out of what they write. -/
theorem noCommandWritesAParameter : Obligations.NoCommandWritesAParameter := by
  intro i s t h
  obtain ⟨c, -, rfl⟩ | ⟨-, rfl⟩ | ⟨-, -, rfl⟩ := exec_next_cases h
  · exact ⟨⟨rfl, rfl, rfl, rfl, rfl, rfl, rfl⟩, rfl, rfl, rfl⟩
  · exact ⟨⟨rfl, rfl, rfl, rfl, rfl, rfl, rfl⟩, rfl, rfl, rfl⟩
  · obtain ⟨x, w, cctr, nblk, mem, heq, -, -⟩ := cipherEnd_effect s
    rw [heq]
    exact ⟨⟨rfl, rfl, rfl, rfl, rfl, rfl, rfl⟩, rfl, rfl, rfl⟩

/-- A command other than CIPHER leaves memory, the map and the host's side alone (20_memory.md R66). -/
theorem exec_sameOutside {i : Instr} {s t : State} (h : exec i s = .next t) (hi : i ≠ .cipher) : s.sameOutside t := by
  obtain ⟨c, -, rfl⟩ | ⟨-, rfl⟩ | ⟨hc, -⟩ := exec_next_cases h
  · exact ⟨fun _ => rfl, rfl, rfl, rfl⟩
  · exact ⟨fun _ => rfl, rfl, rfl, rfl⟩
  · exact absurd hc hi

/-- A command other than CIPHER keeps X and W when it faults, and otherwise writes them as `registerEffect` says. -/
theorem exec_words_cases {i : Instr} {s t : State} (h : exec i s = .next t) (hi : i ≠ .cipher) :
    (t.block.x = s.block.x ∧ t.block.w = s.block.w) ∨
    (t.block.x = (registerEffect i s.block).1 ∧ t.block.w = (registerEffect i s.block).2) := by
  obtain ⟨c, -, rfl⟩ | ⟨-, rfl⟩ | ⟨hc, -⟩ := exec_next_cases h
  · exact .inl ⟨rfl, rfl⟩
  · exact .inr ⟨rfl, rfl⟩
  · exact absurd hc hi

theorem exec_x_eq {i : Instr} {s t : State} (h : exec i s = .next t) (hi : i ≠ .cipher)
    (hkeep : (registerEffect i s.block).1 = s.block.x) : t.block.x = s.block.x := by
  obtain ⟨hx, -⟩ | ⟨hx, -⟩ := exec_words_cases h hi
  · exact hx
  · exact hx.trans hkeep

theorem exec_w_getElem_eq {i : Instr} {s t : State} (h : exec i s = .next t) (hi : i ≠ .cipher) (k : WIndex)
    (hkeep : (registerEffect i s.block).2[k] = s.block.w[k]) : t.block.w[k] = s.block.w[k] := by
  obtain ⟨-, hw⟩ | ⟨-, hw⟩ := exec_words_cases h hi
  · rw [hw]
  · rw [hw, hkeep]

theorem exec_w_eq {i : Instr} {s t : State} (h : exec i s = .next t) (hi : i ≠ .cipher)
    (hkeep : (registerEffect i s.block).2 = s.block.w) : t.block.w = s.block.w :=
  Vector.ext fun k hk => exec_w_getElem_eq h hi ⟨k, hk⟩ (by rw [hkeep])

theorem registerEffect_rotl_x (a c : WIndex) (n : Byte) (b : Block) : (registerEffect (.rotl a c n) b).1 = b.x := by
  simp only [registerEffect]
  split <;> rfl

/-- ROTL writes no word of W but its destination (40_rotate_pack.md R129). -/
theorem registerEffect_rotl_w_other (a c : WIndex) (n : Byte) (b : Block) (k : WIndex) (hk : k ≠ a) :
    (registerEffect (.rotl a c n) b).2[k] = b.w[k] := by
  have hne : a.val ≠ k.val := fun e => hk (Fin.ext e.symm)
  simp only [registerEffect]
  split
  · exact Vector.getElem_set_ne a.isLt k.isLt hne
  · rfl

/-- Settles O57, form by form: `registerEffect` leaves out the words that the form does not name, and a fault writes none. -/
theorem wordFileFrames : Obligations.WordFileFrames := by
  intro s t
  refine ⟨fun a b n h => ⟨?_, fun k hk => ?_, exec_sameOutside h nofun⟩,
    fun a b c d h => ⟨?_, fun k hk => ?_, exec_sameOutside h nofun⟩, ?_, ?_, ?_⟩
  · exact exec_x_eq h nofun (registerEffect_rotl_x a b n s.block)
  · exact exec_w_getElem_eq h nofun k (registerEffect_rotl_w_other a b n s.block k hk)
  · exact exec_x_eq h nofun rfl
  · simp only [List.mem_cons, List.not_mem_nil, or_false, not_or] at hk
    obtain ⟨ha, hb, hc, hd⟩ := hk
    exact exec_w_getElem_eq h nofun k (qrWords_other a b c d s.block.w k ha hb hc hd)
  · rintro i (rfl | rfl) h
    · exact ⟨exec_x_eq h nofun rfl, exec_sameOutside h nofun⟩
    · exact ⟨exec_x_eq h nofun rfl, exec_sameOutside h nofun⟩
  · rintro i (rfl | rfl) h
    · exact ⟨exec_w_eq h nofun rfl, exec_sameOutside h nofun⟩
    · exact ⟨exec_w_eq h nofun rfl, exec_sameOutside h nofun⟩
  · rintro i (rfl | rfl) h
    · exact exec_sameOutside h nofun
    · exact exec_sameOutside h nofun

end Sys2Proof.Machine
end

section
/-! Reset, and the machine's invariant through commands, host actions and steps (spec/10_state.md R32 to R34, R41;
spec/70_reset_and_hazards.md R270). -/

namespace Sys2Proof.Machine

@[simp] theorem reset_x_getElem (i : WIndex) : Block.reset.x[i] = 0 := by simp [Block.reset]

@[simp] theorem reset_w_getElem (i : WIndex) : Block.reset.w[i] = 0 := by simp [Block.reset]

@[simp] theorem reset_key_getElem (j : Fin 32) : Block.reset.key[j] = 0 := by simp [Block.reset]

@[simp] theorem reset_nonce_getElem (j : Fin 12) : Block.reset.nonce[j] = 0 := by simp [Block.reset]

@[simp] theorem hostRead_status_reset : hostRead 1 Block.reset = 0 := by decide

/-- Settles O10: the step is the reset of the block, around which everything else stays. -/
theorem resetActionZeroesTheBlock : Obligations.ResetActionZeroesTheBlock := by
  intro s rest h
  refine ⟨State.resetBlock { s with host := rest }, step_cons h, ?_⟩
  exact ⟨fun i => ⟨reset_x_getElem i, reset_w_getElem i⟩, reset_key_getElem, reset_nonce_getElem,
    rfl, rfl, rfl, rfl, rfl, rfl, rfl, hostRead_status_reset, rfl, rfl, rfl, rfl, rfl, rfl, rfl⟩

/-- The reset block meets its part of the invariant whatever memory is around it. -/
theorem resetBlock_inv {s : State} (hmem : s.mem.wf = true) : s.resetBlock.Inv :=
  ⟨statusOk_reset, Nat.zero_le _, hmem⟩

/-- Settles O54: the reset state is a reset block around a memory that lists no byte. -/
theorem resetMeetsTheInvariant : Obligations.ResetMeetsTheInvariant :=
  ⟨resetBlock_inv reset_mem_wf, fun i => ⟨reset_x_getElem i, reset_w_getElem i⟩, reset_key_getElem, reset_nonce_getElem,
    rfl, rfl, rfl, rfl, rfl, rfl, rfl, rfl, rfl, rfl, fun _ => rfl⟩

/-- Fault entry meets the invariant's part on STATUS from any state (60_exceptions.md R247). -/
theorem raise_keeps_inv {s : State} (hinv : s.Inv) (c : Cause) (word : Word) : (s.raise c word).Inv := by
  obtain ⟨-, hnblk, hmem⟩ := hinv
  exact ⟨statusOk_enterFault _ _ _, hnblk, hmem⟩

theorem exec_keeps_inv {i : Instr} {s t : State} (hinv : s.Inv) (h : exec i s = .next t) : t.Inv := by
  obtain ⟨c, -, rfl⟩ | ⟨-, rfl⟩ | ⟨-, -, rfl⟩ := exec_next_cases h
  · exact raise_keeps_inv hinv c _
  · exact hinv
  · obtain ⟨x, w, cctr, nblk, mem, heq, hnblk, hwf⟩ := cipherEnd_effect s
    obtain ⟨hstatus, -, hmem⟩ := hinv
    rw [heq]
    exact ⟨hstatus, hnblk, hwf hmem⟩

theorem issue_keeps_inv {w : Word} {s t : State} (hinv : s.Inv) (h : issue w s = .next t) : t.Inv := by
  obtain ⟨why, -, e⟩ | ⟨i, -, e⟩ := issue_cases w s <;> rw [e] at h
  · obtain rfl := Host.Outcome.next.inj h
    exact raise_keeps_inv hinv .eCmd w
  · exact exec_keeps_inv hinv h

/-- A register write leaves STATUS, FCMD, NBLK and memory alone (10_state.md R42). -/
theorem writeReg_keeps_inv {s : State} (hinv : s.Inv) (r : HostReg) (v : Word) :
    (s.withBlock (writeReg s.block r v)).Inv := by
  obtain ⟨hstatus, hnblk, hmem⟩ := hinv
  obtain ⟨-, -, -, -, hcount⟩ := writeReg_status s.block r v
  refine ⟨?_, ?_, hmem⟩
  · simpa using hstatus
  · simpa [hcount] using hnblk

theorem hostWrite_keeps_inv {k : Fin 64} {v : Word} {s t : State} (hinv : s.Inv) (h : hostWrite k v s = .next t) :
    t.Inv := by
  obtain ⟨-, e⟩ | ⟨-, -, e⟩ | ⟨-, -, e⟩ | ⟨r, -, -, -, e⟩ := hostWrite_cases k v s <;> rw [e] at h
  · exact Host.Outcome.next.inj h ▸ hinv
  · exact Host.Outcome.next.inj h ▸ hinv
  · exact issue_keeps_inv hinv h
  · exact Host.Outcome.next.inj h ▸ writeReg_keeps_inv hinv r v

/-- The host's own store keeps the canonical form of memory; its read and load write nothing but the list of words it has
been given. -/
theorem hostAct_keeps_inv {act : HostAction} {s t : State} (hinv : s.Inv) (h : hostAct act s = .next t) : t.Inv := by
  cases act with
  | reset =>
    obtain ⟨-, -, hmem⟩ := hinv
    exact Host.Outcome.next.inj h ▸ resetBlock_inv hmem
  | read k => exact Host.Outcome.next.inj h ▸ hinv
  | write k v => exact hostWrite_keeps_inv hinv h
  | load a =>
    simp only [hostAct] at h
    split at h
    · exact Host.Outcome.next.inj h ▸ hinv
    · cases h
  | store a v =>
    simp only [hostAct] at h
    split at h
    · obtain ⟨hstatus, hnblk, hmem⟩ := hinv
      exact Host.Outcome.next.inj h ▸ ⟨hstatus, hnblk, writeByte_wf a v hmem⟩
    · cases h

/-- Settles O53: a step waits or runs one host action, and each kind of action keeps the invariant. -/
theorem stepKeepsTheInvariant : Obligations.StepKeepsTheInvariant := by
  intro s t hinv h
  cases hhost : s.host with
  | nil =>
    rw [step_nil hhost] at h
    exact Host.Outcome.next.inj h ▸ hinv
  | cons act rest =>
    rw [step_cons hhost] at h
    exact hostAct_keeps_inv (s := { s with host := rest }) hinv h

end Sys2Proof.Machine
end

section
/-! The keystream as the byte view of X (spec/10_state.md R38, spec/44_finalizer_block.md R192). -/

namespace Sys2Proof.Machine

/-- Keystream byte 4i + k is byte k of word i of X. -/
theorem keystreamByte_word (x : Words) (i : WIndex) (k : Fin 4) :
    keystreamByte x ⟨4 * i.val + k.val, by omega⟩ = byteOf x[i] k := by
  have hdiv : (4 * i.val + k.val) / 4 = i.val := by omega
  have hmod : (4 * i.val + k.val) % 4 = k.val := by omega
  simp only [keystreamByte, hdiv, hmod, Fin.getElem_fin]

/-- Settles O35: byte by byte through `byteOf`, word by word through `keystreamByte_word`. -/
theorem keystreamIsTheByteViewOfX : Obligations.KeystreamIsTheByteViewOfX := by
  intro x
  refine ⟨fun j => byteOf_toNat _ _, fun i => ?_⟩
  have hword := keystreamByte_word x i
  exact congr_arg₂ Prod.mk (hword 0).symm
    (congr_arg₂ Prod.mk (hword 1).symm (congr_arg₂ Prod.mk (hword 2).symm (hword 3).symm))

end Sys2Proof.Machine
end

section
/-! The register space: the byte lanes of KEYWj and NONCEWj, and the offsets a host write leaves alone (spec/20_memory.md R61,
R63, R64; spec/42_state_initializer.md R162, R164). -/

namespace Sys2Proof.Machine

/-- Byte lane k of KEYWj is index 4j + k of KEY. -/
theorem setKeyWord_lane (key : Vector Byte 32) (j : Fin 8) (v : Word) (k : Fin 4) :
    (setKeyWord key j v)[4 * j.val + k.val] = byteOf v k := by
  have hdiv : (4 * j.val + k.val) / 4 = j.val := by omega
  have hmod : (4 * j.val + k.val) % 4 = k.val := by omega
  simpa [hdiv, hmod] using setKeyWord_getElem key j v ⟨4 * j.val + k.val, by omega⟩

/-- Byte lane k of NONCEWj is index 4j + k of NONCE. -/
theorem setNonceWord_lane (nonce : Vector Byte 12) (j : Fin 3) (v : Word) (k : Fin 4) :
    (setNonceWord nonce j v)[4 * j.val + k.val] = byteOf v k := by
  have hdiv : (4 * j.val + k.val) / 4 = j.val := by omega
  have hmod : (4 * j.val + k.val) % 4 = k.val := by omega
  simpa [hdiv, hmod] using setNonceWord_getElem nonce j v ⟨4 * j.val + k.val, by omega⟩

/-- KEYWj reads back the word written to it. -/
@[simp] theorem keyWord_setKeyWord_same (key : Vector Byte 32) (j : Fin 8) (v : Word) :
    keyWord (setKeyWord key j v) j = v := by
  have lane := setKeyWord_lane key j v
  calc keyWord (setKeyWord key j v) j
      = pack32le (byteOf v 0) (byteOf v 1) (byteOf v 2) (byteOf v 3) := by
        rw [← lane 0, ← lane 1, ← lane 2, ← lane 3]; rfl
    _ = v := pack32le_byteOf v

/-- NONCEWj reads back the word written to it. -/
@[simp] theorem nonceWord_setNonceWord_same (nonce : Vector Byte 12) (j : Fin 3) (v : Word) :
    nonceWord (setNonceWord nonce j v) j = v := by
  have lane := setNonceWord_lane nonce j v
  calc nonceWord (setNonceWord nonce j v) j
      = pack32le (byteOf v 0) (byteOf v 1) (byteOf v 2) (byteOf v 3) := by
        rw [← lane 0, ← lane 1, ← lane 2, ← lane 3]; rfl
    _ = v := pack32le_byteOf v

/-- Settles O14: the lanes give the bytes and the word read back, and the initializer packs that same word. -/
theorem keyAndNonceByteLanes : Obligations.KeyAndNonceByteLanes := by
  refine ⟨fun key nonce ctr j v => ⟨fun k => ?_, fun i hi => ?_, keyWord_setKeyWord_same key j v, ?_⟩,
    fun key nonce ctr j v => ⟨fun k => ?_, fun i hi => ?_, nonceWord_setNonceWord_same nonce j v, ?_⟩⟩
  · rw [setKeyWord_lane, byteOf_toNat]
  · rw [setKeyWord_getElem, if_neg hi]
  · obtain ⟨hkey, -, -⟩ := initWords_getElem (setKeyWord key j v) nonce ctr
    rw [hkey, keyWord_setKeyWord_same]
  · rw [setNonceWord_lane, byteOf_toNat]
  · rw [setNonceWord_getElem, if_neg hi]
  · obtain ⟨-, -, hnonce⟩ := initWords_getElem key (setNonceWord nonce j v) ctr
    rw [hnonce, nonceWord_setNonceWord_same]

/-- The reserved offsets of the register map (20_memory.md R61). -/
theorem regAt_eq_none_iff (k : Fin 64) :
    regAt k = none ↔ (10 ≤ k.val ∧ k.val ≤ 15) ∨ (27 ≤ k.val ∧ k.val ≤ 31) := by
  revert k; decide

theorem hostRead_of_reserved {k : Fin 64} (h : regAt k = none) (b : Block) : hostRead k b = 0 := by
  simp [hostRead, h]

/-- A host write changes nothing at an offset that is reserved or that holds a register which keeps its value. -/
theorem hostWrite_ignored {k : Fin 64} {v : Word} {s : State}
    (h : ∀ r, regAt k = some r → r ≠ .cmd ∧ writeReg s.block r v = s.block) : hostWrite k v s = .next s := by
  obtain ⟨-, e⟩ | ⟨-, -, e⟩ | ⟨-, hcmd, -⟩ | ⟨r, -, hr, -, e⟩ := hostWrite_cases k v s
  · exact e
  · exact e
  · exact absurd rfl (h .cmd hcmd).1
  · rw [e, (h r hr).2, withBlock_self]

/-- A host write to a read-only register changes nothing (20_memory.md R63). -/
theorem hostWrite_readOnly {k : Fin 64} {r : HostReg} (hk : regAt k = some r)
    (hr : r = .status ∨ r = .fcmd ∨ r = .cctr ∨ r = .nblk) (v : Word) (s : State) : hostWrite k v s = .next s := by
  refine hostWrite_ignored fun r' hr' => ?_
  obtain rfl : r = r' := Option.some.inj (hk.symm.trans hr')
  obtain rfl | rfl | rfl | rfl := hr <;> exact ⟨nofun, rfl⟩

/-- Settles O15, register by register for the read-only ones and through `regAt_eq_none_iff` for the reserved offsets. -/
theorem reservedAndReadOnlyOffsets : Obligations.ReservedAndReadOnlyOffsets := by
  constructor
  · rintro k b (hcmd | hreserved)
    · obtain rfl : k = 0 := Fin.ext hcmd
      rfl
    · exact hostRead_of_reserved ((regAt_eq_none_iff k).mpr hreserved) b
  · rintro k v s (h | h | h | h | hreserved)
    · obtain rfl : k = 1 := Fin.ext h
      exact hostWrite_readOnly rfl (.inl rfl) v s
    · obtain rfl : k = 2 := Fin.ext h
      exact hostWrite_readOnly rfl (.inr (.inl rfl)) v s
    · obtain rfl : k = 8 := Fin.ext h
      exact hostWrite_readOnly rfl (.inr (.inr (.inl rfl))) v s
    · obtain rfl : k = 9 := Fin.ext h
      exact hostWrite_readOnly rfl (.inr (.inr (.inr rfl))) v s
    · have hnone := (regAt_eq_none_iff k).mpr hreserved
      exact hostWrite_ignored fun r hr => absurd (hnone.symm.trans hr) nofun

end Sys2Proof.Machine
end

section
/-! Buffer memory as the host and CIPHER reach it: addresses, the host's own store and load, and which commands write it
(spec/20_memory.md R65, R66, R71 to R77; spec/45_keystream_cipher.md R210, R217, R218). -/

namespace Sys2Proof.Machine

/-- Settles O46: BUF_LEN is below 2^32, so the indices of one command are less than 2^32 apart. -/
theorem bufferAddressesWrapAndAreDistinct : Obligations.BufferAddressesWrapAndAreDistinct := by
  intro b
  have hlen := b.bufLen.isLt
  exact ⟨fun i _ => bufferAddr_toNat b i, fun i j hi hj h => bufferAddr_inj (hi.trans hlen) (hj.trans hlen) h⟩

theorem hostAct_store_of_admits {s : State} {a : Addr} (h : admits s.map a = true) (v : Byte) :
    hostAct (.store a v) s = .next { s with mem := s.mem.writeByte a v } := if_pos h

theorem hostAct_load_of_admits {s : State} {a : Addr} (h : admits s.map a = true) :
    hostAct (.load a) s = .next (s.returned ((s.mem.readByte a).setWidth 32)) := if_pos h

theorem step_store_of_admits {s : State} {a : Addr} {v : Byte} {rest : List HostAction}
    (hhost : s.host = .store a v :: rest) (h : admits s.map a = true) :
    step s = .next { s with host := rest, mem := s.mem.writeByte a v } :=
  (step_cons hhost).trans (hostAct_store_of_admits (s := { s with host := rest }) h v)

theorem step_load_of_admits {s : State} {a : Addr} {rest : List HostAction}
    (hhost : s.host = .load a :: rest) (h : admits s.map a = true) :
    step s = .next (State.returned { s with host := rest } ((s.mem.readByte a).setWidth 32)) :=
  (step_cons hhost).trans (hostAct_load_of_admits (s := { s with host := rest }) h)

theorem run_succ_of_step {s t : State} (k : Nat) (h : step s = .next t) :
    Sys2Proof.core.run (k + 1) s = Sys2Proof.core.run k t := by
  have hstep : Sys2Proof.core.step s = .next t := h
  simp only [Host.Core.run, hstep]

/-- Settles O17: the two steps are the store and the load, and the load reads the memory that the store wrote. -/
theorem hostStoreThenLoadReturnsTheByte : Obligations.HostStoreThenLoadReturnsTheByte := by
  intro s a v rest hadmit hhost
  have hstore := run_succ_of_step 1 (step_store_of_admits hhost hadmit)
  have hload := run_succ_of_step 0 (step_load_of_admits
    (s := { s with host := .load a :: rest, mem := s.mem.writeByte a v }) rfl hadmit)
  refine ⟨_, hstore.trans hload, ?_, rfl, rfl, rfl, readByte_writeByte_same s.mem a v,
    fun a' ha => readByte_writeByte_other s.mem a a' v ha⟩
  simp [State.returned]

theorem exec_cipher_of_keyLen_ne {s : State} (h : s.block.keyLen ≠ 32) :
    exec .cipher s = .next (s.raise .eKeyLen (encode .cipher)) :=
  if_neg (mt (keyLenValid_iff _).mp h)

theorem exec_cipher_of_rounds_invalid {s : State} (hkey : s.block.keyLen = 32) (hlen : s.block.bufLen ≠ 0)
    (hrounds : roundsValid s.block.rounds = false) :
    exec .cipher s = .next (s.raise .eRounds (encode .cipher)) :=
  (if_pos ((keyLenValid_iff _).mpr hkey)).trans (if_pos ⟨hlen, hrounds⟩)

theorem exec_cipher_of_not_admitted {s : State} (hkey : s.block.keyLen = 32)
    (hrounds : roundsValid s.block.rounds = true) (hadmit : bufferAdmitted s = false) :
    exec .cipher s = .fault .bufferAddressNotAdmitted := by
  simp [exec, execCipher, hkey, hrounds, hadmit]

/-- Settles O41: one unadmitted address is enough for the stop, and both tests stand before admission. -/
theorem cipherWithoutAdmissionHasNoStep : Obligations.CipherWithoutAdmissionHasNoStep := by
  intro s
  refine ⟨fun i hkey hrounds hi hadmit => ?_, exec_cipher_of_keyLen_ne, exec_cipher_of_rounds_invalid⟩
  exact exec_cipher_of_not_admitted hkey hrounds ((bufferAdmitted_eq_false_iff s).mpr ⟨i, hi, hadmit⟩)

/-- A whole CIPHER command leaves every byte outside its working buffer alone. -/
theorem cipherEnd_readByte_other {s : State} {a : Addr}
    (h : ∀ i, i < s.block.bufLen.toNat → a ≠ bufferAddr s.block i) :
    (cipherEnd s (cipherBytes s.block.bufLen.toNat 0 (cipherStart s))).mem.readByte a = s.mem.readByte a := by
  obtain ⟨-, -, -, -, -, -, hout, -⟩ := cipherBytes_spec s _ s.block.bufLen.isLt
  exact hout a h

/-- Settles O42: CIPHER either takes a fault, which writes FAULT, CAUSE and FCMD alone, or runs its loop. -/
theorem cipherFrame : Obligations.CipherFrame := by
  intro s t h
  obtain ⟨hparams, hmap, hhost, hreads⟩ := noCommandWritesAParameter .cipher s t h
  obtain ⟨c, -, rfl⟩ | ⟨hne, -⟩ | ⟨-, -, rfl⟩ := exec_next_cases h
  · exact ⟨fun _ _ => rfl, hparams, hmap, hhost, hreads, .inr ⟨rfl, rfl⟩⟩
  · exact absurd rfl hne
  · refine ⟨fun a ha => cipherEnd_readByte_other ha, hparams, hmap, hhost, hreads, .inl ?_⟩
    obtain ⟨x, w, cctr, nblk, mem, heq, -, -⟩ := cipherEnd_effect s
    rw [heq]
    exact ⟨rfl, rfl, rfl⟩

/-- Settles O56: a command other than CIPHER takes a fault or writes X and W alone. -/
theorem onlyCipherTouchesMemoryAndCounters : Obligations.OnlyCipherTouchesMemoryAndCounters := by
  intro i s t hi h
  obtain ⟨c, -, rfl⟩ | ⟨-, rfl⟩ | ⟨hc, -⟩ := exec_next_cases h
  · exact ⟨rfl, fun _ => rfl, rfl, rfl⟩
  · exact ⟨rfl, fun _ => rfl, rfl, rfl⟩
  · exact absurd hc hi

end Sys2Proof.Machine
end

section
/-! Where a step stops (spec/20_memory.md R72, spec/60_exceptions.md R245). -/

namespace Sys2Proof.Machine

/-- CIPHER has one word (30_encoding.md R93). -/
theorem word_of_decode_cipher {w : Word} (h : decode w = .cmd .cipher) : w = 0x20000000 := by
  obtain ⟨-, -, -, e⟩ | ⟨-, -, -, e⟩ | ⟨i, hmem, e⟩ | ⟨-, -, -, e⟩ := decode_cases w
  · cases h.symm.trans e
  · cases h.symm.trans e
  · obtain rfl : i = .cipher := Decoded.cmd.inj (e.symm.trans h)
    simpa using hmem
  · cases h.symm.trans e

/-- Command issue gives a next state, or stops on the CIPHER word with an unadmitted buffer. -/
theorem issue_next_or_stops (w : Word) (s : State) :
    (∃ t, issue w s = .next t) ∨
    (issue w s = .fault .bufferAddressNotAdmitted ∧ w = 0x20000000 ∧ s.block.keyLen = 32 ∧ bufferAdmitted s = false) := by
  obtain ⟨why, -, e⟩ | ⟨i, hdecode, e⟩ := issue_cases w s
  · exact .inl ⟨_, e⟩
  · by_cases hnext : ∃ t, exec i s = .next t
    · obtain ⟨t, ht⟩ := hnext
      exact .inl ⟨t, e.trans ht⟩
    · obtain ⟨rfl, hkey, -, hadmit, hstop⟩ := exec_stops fun t ht => hnext ⟨t, ht⟩
      exact .inr ⟨e.trans hstop, word_of_decode_cipher hdecode, hkey, hadmit⟩

/-- A host write gives a next state, or issues the CIPHER word to an unfaulted block and stops. -/
theorem hostWrite_next_or_stops (k : Fin 64) (v : Word) (s : State) :
    (∃ t, hostWrite k v s = .next t) ∨
    (hostWrite k v s = .fault .bufferAddressNotAdmitted ∧ k = 0 ∧ v = 0x20000000 ∧ s.block.fault = false ∧
      s.block.keyLen = 32 ∧ bufferAdmitted s = false) := by
  obtain ⟨-, e⟩ | ⟨-, -, e⟩ | ⟨hfault, hcmd, e⟩ | ⟨r, -, -, -, e⟩ := hostWrite_cases k v s
  · exact .inl ⟨_, e⟩
  · exact .inl ⟨_, e⟩
  · obtain ⟨t, ht⟩ | ⟨hstop, hv, hkey, hadmit⟩ := issue_next_or_stops v s
    · exact .inl ⟨t, e.trans ht⟩
    · exact .inr ⟨e.trans hstop, (regAt_eq_cmd_iff k).mp hcmd, hv, hfault, hkey, hadmit⟩
  · exact .inl ⟨_, e⟩

/-- Every host action gives a next state, or stops at an address that the platform does not admit: of the working buffer of
a CIPHER it issues, or of its own load or store. -/
theorem hostAct_next_or_stops (act : HostAction) (s : State) :
    (∃ t, hostAct act s = .next t) ∨
    (hostAct act s = .fault .bufferAddressNotAdmitted ∧ act = .write 0 0x20000000 ∧ s.block.fault = false ∧
      s.block.keyLen = 32 ∧ bufferAdmitted s = false) ∨
    (hostAct act s = .fault .hostAddressNotAdmitted ∧
      ∃ a, admits s.map a = false ∧ (act = .load a ∨ ∃ v, act = .store a v)) := by
  cases act with
  | reset => exact .inl ⟨_, rfl⟩
  | read k => exact .inl ⟨_, rfl⟩
  | write k v =>
    obtain ⟨t, ht⟩ | ⟨hstop, rfl, rfl, hfault, hkey, hadmit⟩ := hostWrite_next_or_stops k v s
    · exact .inl ⟨t, ht⟩
    · exact .inr (.inl ⟨hstop, rfl, hfault, hkey, hadmit⟩)
  | load a =>
    cases hadmit : admits s.map a with
    | true => exact .inl ⟨_, hostAct_load_of_admits hadmit⟩
    | false => exact .inr (.inr ⟨by simp [hostAct, hadmit], a, hadmit, .inl rfl⟩)
  | store a v =>
    cases hadmit : admits s.map a with
    | true => exact .inl ⟨_, hostAct_store_of_admits hadmit v⟩
    | false => exact .inr (.inr ⟨by simp [hostAct, hadmit], a, hadmit, .inr ⟨v, rfl⟩⟩)

/-- Settles O58: a step waits or runs one host action, and `hostAct_next_or_stops` says how an action can stop. -/
theorem stepStopsOnlyWithoutAdmission : Obligations.StepStopsOnlyWithoutAdmission := by
  intro s
  cases hhost : s.host with
  | nil => simp [step_nil hhost]
  | cons act rest =>
    rw [step_cons hhost]
    obtain ⟨t, e⟩ | ⟨e, rfl, hfault, hkey, hadmit⟩ | ⟨e, a, hadmit, hact⟩ :=
      hostAct_next_or_stops act { s with host := rest } <;> rw [e]
    · exact ⟨nofun, nofun⟩
    · refine ⟨nofun, fun f hf => .inl ⟨(Host.Outcome.fault.inj hf).symm, hfault, hkey, ⟨rest, rfl⟩, ?_⟩⟩
      exact (bufferAdmitted_eq_false_iff { s with host := rest }).mp hadmit
    · refine ⟨nofun, fun f hf => .inr ⟨(Host.Outcome.fault.inj hf).symm, a, hadmit, ?_⟩⟩
      obtain rfl | ⟨v, rfl⟩ := hact
      · exact .inl ⟨rest, rfl⟩
      · exact .inr ⟨v, rest, rfl⟩

end Sys2Proof.Machine
end

section
/-! The encoder and the decoder as inverses of each other, and the opcode table as the decoder reads it
(spec/30_encoding.md R90 to R98). -/

namespace Sys2Proof

/-! ### The fields of an encoded ROTL and of an encoded QR (R98) -/

@[simp] theorem opField_encode_rotl (a b : WIndex) (n : Byte) : opField (encode (.rotl a b n)) = 1 := by
  refine BitVec.eq_of_toNat_eq ?_
  rw [opField_toNat, encode_rotl_toNat, show (1 : BitVec 8).toNat = 1 from rfl]
  omega

@[simp] theorem aField_encode_rotl (a b : WIndex) (n : Byte) : aField (encode (.rotl a b n)) = a := by
  rw [Fin.ext_iff, aField_val, encode_rotl_toNat]
  omega

@[simp] theorem bField_encode_rotl (a b : WIndex) (n : Byte) : bField (encode (.rotl a b n)) = b := by
  rw [Fin.ext_iff, bField_val, encode_rotl_toNat]
  omega

@[simp] theorem cField_encode_rotl (a b : WIndex) (n : Byte) : cField (encode (.rotl a b n)) = 0 := by
  rw [Fin.ext_iff, cField_val, encode_rotl_toNat, Fin.val_zero]
  omega

@[simp] theorem dField_encode_rotl (a b : WIndex) (n : Byte) : dField (encode (.rotl a b n)) = 0 := by
  rw [Fin.ext_iff, dField_val, encode_rotl_toNat, Fin.val_zero]
  omega

@[simp] theorem imm8Field_encode_rotl (a b : WIndex) (n : Byte) : imm8Field (encode (.rotl a b n)) = n := by
  refine BitVec.eq_of_toNat_eq ?_
  rw [imm8Field_toNat, encode_rotl_toNat]
  omega

@[simp] theorem opField_encode_qr (a b c d : WIndex) : opField (encode (.qr a b c d)) = 2 := by
  refine BitVec.eq_of_toNat_eq ?_
  rw [opField_toNat, encode_qr_toNat, show (2 : BitVec 8).toNat = 2 from rfl]
  omega

@[simp] theorem aField_encode_qr (a b c d : WIndex) : aField (encode (.qr a b c d)) = a := by
  rw [Fin.ext_iff, aField_val, encode_qr_toNat]
  omega

@[simp] theorem bField_encode_qr (a b c d : WIndex) : bField (encode (.qr a b c d)) = b := by
  rw [Fin.ext_iff, bField_val, encode_qr_toNat]
  omega

@[simp] theorem cField_encode_qr (a b c d : WIndex) : cField (encode (.qr a b c d)) = c := by
  rw [Fin.ext_iff, cField_val, encode_qr_toNat]
  omega

@[simp] theorem dField_encode_qr (a b c d : WIndex) : dField (encode (.qr a b c d)) = d := by
  rw [Fin.ext_iff, dField_val, encode_qr_toNat]
  omega

@[simp] theorem imm8Field_encode_qr (a b c d : WIndex) : imm8Field (encode (.qr a b c d)) = 0 := by
  refine BitVec.eq_of_toNat_eq ?_
  rw [imm8Field_toNat, encode_qr_toNat, show (0 : Byte).toNat = 0 from rfl]
  omega

@[simp] theorem wf_qr (a b c d : WIndex) : (Instr.qr a b c d).wf = distinctIndices a b c d := rfl

/-- Settles O1: ROTL and QR by the fields of their words, a command of format Z by its one word. -/
theorem decodeOfEncodeIsTheCommand : Obligations.DecodeOfEncodeIsTheCommand := by
  intro i hwf
  cases i with
  | rotl a b n => simp [decode]
  | qr a b c d =>
    rw [wf_qr] at hwf
    simp [decode, hwf]
  | _ => rfl

/-! ### The rows of ROTL and QR as the conditions the decoder tests (R93, R98) -/

theorem rotlRow_iff_fields (w : Word) :
    w &&& 0xFF00FF00 = 0x01000000 ↔ opField w = 1 ∧ cField w = 0 ∧ dField w = 0 := by
  rw [rotlRow_iff, ← BitVec.toNat_inj, opField_toNat, Fin.ext_iff, cField_val, Fin.ext_iff, dField_val,
    show (1 : BitVec 8).toNat = 1 from rfl, Fin.val_zero]
  omega

theorem qrRow_iff_fields (w : Word) : w &&& 0xFF0000FF = 0x02000000 ↔ opField w = 2 ∧ imm8Field w = 0 := by
  rw [qrRow_iff, ← BitVec.toNat_inj, opField_toNat, ← BitVec.toNat_inj, imm8Field_toNat]
  rfl

/-- The condition of R94 on the four index fields of a word. -/
theorem distinctFields_iff (w : Word) :
    distinctIndices (aField w) (bField w) (cField w) (dField w) = true ↔
      [w.toNat / 2 ^ 20 % 16, w.toNat / 2 ^ 16 % 16, w.toNat / 2 ^ 12 % 16, w.toNat / 2 ^ 8 % 16].Nodup := by
  rw [distinctIndices_iff, aField_val, bField_val, cField_val, dField_val]

/-- A word of the ROTL row is the encoding of its fields. -/
theorem encode_rotl_fields {w : Word} (h : w &&& 0xFF00FF00 = 0x01000000) :
    encode (.rotl (aField w) (bField w) (imm8Field w)) = w := by
  obtain ⟨hop, hunused⟩ := (rotlRow_iff w).mp h
  refine BitVec.eq_of_toNat_eq ?_
  rw [encode_rotl_toNat, aField_val, bField_val, imm8Field_toNat]
  omega

/-- A word of the QR row is the encoding of its fields. -/
theorem encode_qr_fields {w : Word} (h : w &&& 0xFF0000FF = 0x02000000) :
    encode (.qr (aField w) (bField w) (cField w) (dField w)) = w := by
  obtain ⟨hop, himm⟩ := (qrRow_iff w).mp h
  refine BitVec.eq_of_toNat_eq ?_
  rw [encode_qr_toNat, aField_val, bField_val, cField_val, dField_val]
  omega

/-- Settles O2, along the answers of the decoder: each is given for the words of one row. -/
theorem encodeOfDecodeIsTheWord : Obligations.EncodeOfDecodeIsTheWord := by
  intro w i h
  obtain ⟨hop, hc, hd, e⟩ | ⟨hop, himm, hdistinct, e⟩ | ⟨j, hmem, e⟩ | ⟨-, -, -, e⟩ := decode_cases w <;>
    rw [e] at h
  · obtain rfl := Decoded.cmd.inj h
    exact ⟨rfl, encode_rotl_fields ((rotlRow_iff_fields w).mpr ⟨hop, hc, hd⟩)⟩
  · obtain rfl := Decoded.cmd.inj h
    exact ⟨hdistinct, encode_qr_fields ((qrRow_iff_fields w).mpr ⟨hop, himm⟩)⟩
  · obtain rfl := Decoded.cmd.inj h
    simp only [List.mem_cons, List.not_mem_nil, or_false, Prod.mk.injEq] at hmem
    obtain ⟨rfl, rfl⟩ | ⟨rfl, rfl⟩ | ⟨rfl, rfl⟩ | ⟨rfl, rfl⟩ | ⟨rfl, rfl⟩ | ⟨rfl, rfl⟩ | ⟨rfl, rfl⟩ := hmem <;>
      exact ⟨rfl, rfl⟩
  · cases h

/-- A word decodes to a well-formed command exactly when it is its encoding (R98). -/
theorem decode_eq_cmd_iff {i : Instr} (hwf : i.wf = true) (w : Word) : decode w = .cmd i ↔ encode i = w := by
  constructor
  · exact fun h => (encodeOfDecodeIsTheWord w i h).2
  · rintro rfl
    exact decodeOfEncodeIsTheCommand i hwf

/-- Settles O4: the word is the encoding of its command, whose fields are the operands. -/
theorem operandsAreTheNamedBits : Obligations.OperandsAreTheNamedBits := by
  refine fun w => ⟨fun a b n h => ?_, fun a b c d h => ?_⟩ <;> obtain ⟨-, rfl⟩ := encodeOfDecodeIsTheWord _ _ h
  · rw [← aField_val, ← bField_val, ← imm8Field_toNat]
    simp
  · rw [← aField_val, ← bField_val, ← cField_val, ← dField_val]
    simp

/-- Settles O5, by running the decoder. -/
theorem sampleWordsDecode : Obligations.SampleWordsDecode := by
  unfold Obligations.SampleWordsDecode
  decide

/-! ### The opcode table (R93) -/

theorem decode_rotl_iff (w : Word) :
    (∃ a b n, decode w = .cmd (.rotl a b n)) ↔ w &&& 0xFF00FF00 = 0x01000000 := by
  constructor
  · rintro ⟨a, b, n, h⟩
    obtain ⟨-, rfl⟩ := encodeOfDecodeIsTheWord _ _ h
    exact Laws.EncodeMatchesRow.rotl a b n
  · exact fun h => ⟨_, _, _, (decode_eq_cmd_iff rfl w).mpr (encode_rotl_fields h)⟩

theorem decode_qr_iff (w : Word) :
    (∃ a b c d, decode w = .cmd (.qr a b c d)) ↔ w &&& 0xFF0000FF = 0x02000000 ∧
      [w.toNat / 2 ^ 20 % 16, w.toNat / 2 ^ 16 % 16, w.toNat / 2 ^ 12 % 16, w.toNat / 2 ^ 8 % 16].Nodup := by
  rw [← distinctFields_iff]
  constructor
  · rintro ⟨a, b, c, d, h⟩
    obtain ⟨hwf, rfl⟩ := encodeOfDecodeIsTheWord _ _ h
    exact ⟨Laws.EncodeMatchesRow.qr a b c d, by simpa using hwf⟩
  · rintro ⟨hrow, hdistinct⟩
    exact ⟨_, _, _, _, (decode_eq_cmd_iff ((wf_qr ..).trans hdistinct) w).mpr (encode_qr_fields hrow)⟩

/-- The row of a command of format Z fixes every bit of its word. -/
theorem decode_eq_cmd_iff_allOnes {i : Instr} (hwf : i.wf = true) (w : Word) :
    decode w = .cmd i ↔ w &&& 0xFFFFFFFF = encode i := by
  rw [decode_eq_cmd_iff hwf, show (0xFFFFFFFF : Word) = BitVec.allOnes 32 from rfl, BitVec.and_allOnes, eq_comm]

/-- The opcode of every encoding is listed. -/
theorem opcode_encode_mem (i : Instr) :
    (encode i).toNat / 2 ^ 24 ∈ [0x01, 0x02, 0x10, 0x11, 0x12, 0x13, 0x14, 0x20, 0x30] := by
  rw [← opField_toNat]
  cases i with
  | rotl a b n => simp
  | qr a b c d => simp
  | _ => decide

theorem decode_illegal_of_unlisted {w : Word}
    (h : w.toNat / 2 ^ 24 ∉ [0x01, 0x02, 0x10, 0x11, 0x12, 0x13, 0x14, 0x20, 0x30]) :
    ∃ why, decode w = .illegal why := by
  cases hdecode : decode w with
  | illegal why => exact ⟨why, rfl⟩
  | cmd i =>
    obtain ⟨-, rfl⟩ := encodeOfDecodeIsTheWord w i hdecode
    exact absurd (opcode_encode_mem i) h

/-- The rows of the opcode table as conditions on a word, each with the row's opcode. -/
def opcodeRows (w : Word) : List (Prop × Nat) :=
  [(w &&& 0xFF00FF00 = 0x01000000, 0x01), (w &&& 0xFF0000FF = 0x02000000, 0x02), (w = 0x10000000, 0x10),
    (w = 0x11000000, 0x11), (w = 0x12000000, 0x12), (w = 0x13000000, 0x13), (w = 0x14000000, 0x14),
    (w = 0x20000000, 0x20), (w = 0x30000000, 0x30)]

theorem opcode_of_row {w : Word} : ∀ r ∈ opcodeRows w, r.1 → w.toNat / 2 ^ 24 = r.2 := by
  simp only [opcodeRows, List.forall_mem_cons]
  refine ⟨fun h => ((rotlRow_iff w).mp h).1, fun h => ((qrRow_iff w).mp h).1, ?_⟩
  refine ⟨?_, ?_, ?_, ?_, ?_, ?_, ?_, by simp⟩ <;>
  · rintro rfl
    rfl

/-- No word matches two rows: the rows have different opcodes. -/
theorem rows_disjoint (w : Word) : ((opcodeRows w).map Prod.fst).Pairwise fun p q => ¬(p ∧ q) := by
  have hopcodes : ((opcodeRows w).map Prod.snd).Nodup := by simp [opcodeRows]
  refine List.pairwise_map.mpr ((List.pairwise_map.mp hopcodes).imp_of_mem ?_)
  intro r r' hr hr' hne ⟨h, h'⟩
  exact hne ((opcode_of_row r hr h).symm.trans (opcode_of_row r' hr' h'))

/-- Settles O3, row by row. -/
theorem decodeFollowsTheOpcodeTable : Obligations.DecodeFollowsTheOpcodeTable := fun w =>
  ⟨decode_rotl_iff w, decode_qr_iff w, decode_eq_cmd_iff_allOnes rfl w, decode_eq_cmd_iff_allOnes rfl w,
    decode_eq_cmd_iff_allOnes rfl w, decode_eq_cmd_iff_allOnes rfl w, decode_eq_cmd_iff_allOnes rfl w,
    decode_eq_cmd_iff_allOnes rfl w, decode_eq_cmd_iff_allOnes rfl w, decode_illegal_of_unlisted, rows_disjoint w⟩

end Sys2Proof
end

section
/-! Issuing a word that is no command (spec/30_encoding.md R94, R96; spec/60_exceptions.md R244, R247). -/

namespace Sys2Proof.Machine

/-- A word of no row, or of the QR row with two equal indices, is illegal (30_encoding.md R96). -/
theorem decode_illegal_of_no_row {w : Word} (hrotl : w &&& 0xFF00FF00 ≠ 0x01000000)
    (hqr : w &&& 0xFF0000FF = 0x02000000 →
      ¬[w.toNat / 2 ^ 20 % 16, w.toNat / 2 ^ 16 % 16, w.toNat / 2 ^ 12 % 16, w.toNat / 2 ^ 8 % 16].Nodup)
    (hz : w ∉ [(0x10000000 : Word), 0x11000000, 0x12000000, 0x13000000, 0x14000000, 0x20000000, 0x30000000]) :
    ∃ why, decode w = .illegal why := by
  obtain ⟨-, -, -, e⟩ | ⟨-, -, -, e⟩ | ⟨i, hmem, -⟩ | ⟨-, -, -, e⟩ := decode_cases w
  · exact absurd ((decode_rotl_iff w).mp ⟨_, _, _, e⟩) hrotl
  · obtain ⟨hrow, hdistinct⟩ := (decode_qr_iff w).mp ⟨_, _, _, _, e⟩
    exact absurd hdistinct (hqr hrow)
  · exact absurd (List.mem_map_of_mem (f := Prod.snd) hmem) hz
  · exact ⟨_, e⟩

/-- A write to CMD of an unfaulted block issues the word (46_system.md R233). -/
theorem step_of_issue {s : State} {w : Word} {rest : List HostAction} (hhost : s.host = .write 0 w :: rest)
    (hfault : s.block.fault = false) : step s = issue w { s with host := rest } := by
  rw [step_cons hhost]
  simp [hostAct, hostWrite, hfault, (regAt_eq_cmd_iff 0).mpr rfl]

/-- Issuing an illegal word is fault entry with E_CMD and that word (46_system.md R234, 60_exceptions.md R247). -/
theorem step_of_illegal {s : State} {w : Word} {rest : List HostAction} (hhost : s.host = .write 0 w :: rest)
    (hfault : s.block.fault = false) {why : Illegal} (hdecode : decode w = .illegal why) :
    step s = .next { s with host := rest, block := { s.block with fault := true, cause := 4, fcmd := w } } := by
  rw [step_of_issue hhost hfault]
  simp [issue, hdecode, raise_eq, Cause.code]

/-- Settles O7: such a word is illegal, and so are the all-zero and the all-ones word. -/
theorem wordsWithoutCommandRaiseECmd : Obligations.WordsWithoutCommandRaiseECmd := by
  refine ⟨fun s w rest hhost hfault hrotl hqr hz => ?_, fun s w rest hhost hfault hw => ?_⟩
  · obtain ⟨why, hdecode⟩ := decode_illegal_of_no_row hrotl hqr hz
    exact step_of_illegal hhost hfault hdecode
  · have hdecode : decode w = .illegal .unlistedOpcode := by
      obtain rfl | rfl := hw <;> decide
    exact step_of_illegal hhost hfault hdecode

theorem distinctIndices_iff_nodup (a b c d : WIndex) : distinctIndices a b c d = true ↔ [a, b, c, d].Nodup := by
  rw [distinctIndices_iff, ← List.nodup_map_iff Fin.val_injective]
  rfl

/-- A QR word with two equal indices matches the QR row alone and breaks R94 there (30_encoding.md R94, R96). -/
theorem decode_encode_qr_illegal {a b c d : WIndex} (h : ¬[a, b, c, d].Nodup) :
    ∃ why, decode (encode (.qr a b c d)) = .illegal why := by
  have hformatZ : ∀ v ∈ [(0x10000000 : Word), 0x11000000, 0x12000000, 0x13000000, 0x14000000, 0x20000000, 0x30000000],
      opField v ≠ 2 := by simp [opField]
  refine decode_illegal_of_no_row ?_ (fun _ => ?_) fun hmem => hformatZ _ hmem (opField_encode_qr a b c d)
  · rw [Ne, rotlRow_iff_fields]
    simp
  · rw [← distinctFields_iff]
    simpa [distinctIndices_iff_nodup] using h

/-- Settles O26: `execQr` tests the indices, and the word of such a term is illegal. -/
theorem qrWithEqualIndicesRaisesECmd : Obligations.QrWithEqualIndicesRaisesECmd := by
  refine fun a b c d s rest h => ⟨?_, fun hhost hfault => ?_⟩
  · simp [exec, execQr, (distinctIndices_iff_nodup a b c d).not.mpr h, raise_eq, Cause.code]
  · obtain ⟨why, hdecode⟩ := decode_encode_qr_illegal h
    exact step_of_illegal hhost hfault hdecode

end Sys2Proof.Machine
end

section
/-! Rotation by a legal amount as a permutation of bit positions (spec/40_rotate_pack.md R120 to R122). -/

namespace Sys2Proof.Machine

/-- Bit j of a rotation by n: the left shift supplies it for n <= j, the right shift for j < n (40_rotate_pack.md R120). -/
theorem rotl32_getLsbD (x : Word) (n : RotAmount) {j : Nat} (hj : j < 32) :
    (rotl32 x n).getLsbD j = x.getLsbD ((j + 32 - n.val) % 32) := by
  obtain ⟨n, hn⟩ := n
  simp only [rotl32, BitVec.getLsbD_or, BitVec.getLsbD_shiftLeft, BitVec.getLsbD_ushiftRight]
  by_cases hlow : j < n
  · have hpos : (j + 32 - n) % 32 = 32 - n + j := by omega
    simp [hlow, hpos]
  · have hpos : (j + 32 - n) % 32 = j - n := by omega
    have hout : x.getLsbD (32 - n + j) = false := BitVec.getLsbD_of_ge x _ (by omega)
    simp [hlow, hj, hpos, hout]

/-- Settles O20: the formula is the definition, the bit law is `rotl32_getLsbD`. -/
theorem rotationMovesBits : Obligations.RotationMovesBits :=
  fun x n _ hj => ⟨rfl, rotl32_getLsbD x n hj⟩

/-- Rotating by m and then by n moves every bit by m + n (40_rotate_pack.md R122 (c)). -/
theorem rotl32_rotl32 (x : Word) {m n k : RotAmount} (hk : k.val = m.val + n.val) :
    rotl32 (rotl32 x m) n = rotl32 x k := by
  refine BitVec.eq_of_getLsbD_eq fun j hj => ?_
  rw [rotl32_getLsbD _ n hj, rotl32_getLsbD x m (Nat.mod_lt _ (by decide)), rotl32_getLsbD x k hj]
  congr 1
  omega

/-- Amounts that sum to 32 bring every bit back to its place (40_rotate_pack.md R122 (d)). -/
theorem rotl32_rotl32_cancel (x : Word) {n m : RotAmount} (hm : m.val = 32 - n.val) :
    rotl32 (rotl32 x n) m = x := by
  refine BitVec.eq_of_getLsbD_eq fun j hj => ?_
  rw [rotl32_getLsbD _ m hj, rotl32_getLsbD x n (Nat.mod_lt _ (by decide))]
  congr 1
  omega

theorem rotl32_eq_iterate (x : Word) (n : RotAmount) :
    rotl32 x n = (fun y => rotl32 y ⟨1, by decide⟩)^[n.val] x := by
  obtain ⟨n, hpos, hle⟩ := n
  induction n, hpos using Nat.le_induction with
  | base => rfl
  | succ n hpos ih =>
    rw [Function.iterate_succ_apply', ← ih (by omega)]
    exact (rotl32_rotl32 x rfl).symm

@[simp] theorem rotl32_zero (n : RotAmount) : rotl32 0 n = 0 := by simp [rotl32]

@[simp] theorem rotl32_allOnes (n : RotAmount) : rotl32 0xFFFFFFFF n = 0xFFFFFFFF := by
  refine BitVec.eq_of_getLsbD_eq fun j hj => ?_
  have hones : ∀ i < 32, (0xFFFFFFFF : Word).getLsbD i = true := by decide
  rw [rotl32_getLsbD _ n hj, hones _ (Nat.mod_lt _ (by decide)), hones j hj]

theorem rotl32_xor (x y : Word) (n : RotAmount) : rotl32 (x ^^^ y) n = rotl32 x n ^^^ rotl32 y n := by
  refine BitVec.eq_of_getLsbD_eq fun j hj => ?_
  simp only [BitVec.getLsbD_xor, rotl32_getLsbD _ n hj]

/-- Settles O21: the laws are read off where the bits go, the iteration off the sum of two amounts. -/
theorem rotationLaws : Obligations.RotationLaws := by
  refine ⟨fun x => ⟨rotl32_getLsbD x _ (by decide), fun j hj => ?_⟩, rotl32_eq_iterate,
    fun x _ _ _ hk => rotl32_rotl32 x hk, fun x _ _ hm => rotl32_rotl32_cancel x hm,
    fun n => ⟨rotl32_zero n, rotl32_allOnes n⟩, rotl32_xor⟩
  have hpos : (j + 1 + 32 - 1) % 32 = j := by omega
  rw [rotl32_getLsbD x _ (by omega), hpos]

end Sys2Proof.Machine
end

section
/-! The ROTL command, with its rotation as a number (spec/40_rotate_pack.md R120, R129; spec/60_exceptions.md R241, R247). -/

namespace Sys2Proof.Machine

/-- The two parts of a rotation do not overlap: the left shift ends in n zeros, the right shift is below 2^n
(40_rotate_pack.md R120). -/
theorem rotl32_toNat (x : Word) (n : RotAmount) :
    (rotl32 x n).toNat = x.toNat * 2 ^ n.val % 2 ^ 32 + x.toNat / 2 ^ (32 - n.val) := by
  have hsplit : 2 ^ 32 = 2 ^ n.val * 2 ^ (32 - n.val) := by
    rw [← Nat.pow_add, Nat.add_sub_cancel' (by omega)]
  have hhigh : x.toNat * 2 ^ n.val % 2 ^ 32 = 2 ^ n.val * (x.toNat % 2 ^ (32 - n.val)) := by
    rw [hsplit, Nat.mul_comm x.toNat, Nat.mul_mod_mul_left]
  have hlow : x.toNat / 2 ^ (32 - n.val) < 2 ^ n.val :=
    Nat.div_lt_of_lt_mul (by rw [Nat.mul_comm, ← hsplit]; exact x.isLt)
  rw [hhigh, Nat.two_pow_add_eq_or_of_lt hlow, ← hhigh, rotl32, BitVec.toNat_or, BitVec.toNat_shiftLeft,
    BitVec.toNat_ushiftRight, Nat.shiftLeft_eq, Nat.shiftRight_eq_div_pow]

theorem exec_rotl_of_legal {n : Byte} (h : 1 ≤ n.toNat ∧ n.toNat ≤ 31) (a b : WIndex) (s : State) :
    exec (.rotl a b n) s = .next (s.withBlock (s.block.setW a (rotl32 s.block.w[b] ⟨n.toNat, h⟩))) :=
  dif_pos h

theorem exec_rotl_of_illegal {n : Byte} (h : ¬(1 ≤ n.toNat ∧ n.toNat ≤ 31)) (a b : WIndex) (s : State) :
    exec (.rotl a b n) s = .next (s.raise .eRot (encode (.rotl a b n))) :=
  dif_neg h

/-- The ROTL word written as the sum of its fields (30_encoding.md R98). -/
theorem encode_rotl_eq_ofNat (a b : WIndex) (n : Byte) :
    encode (.rotl a b n) = BitVec.ofNat 32 (2 ^ 24 + a.val * 2 ^ 20 + b.val * 2 ^ 16 + n.toNat) := by
  rw [← encode_rotl_toNat, BitVec.ofNat_toNat, BitVec.setWidth_eq]

/-- Settles O19: the two branches of `execRotl`, with the rotation and the recorded word as numbers. -/
theorem rotlRotatesOrFaults : Obligations.RotlRotatesOrFaults := by
  refine fun a b n s => ⟨fun hlow hhigh => ?_, fun hillegal => ?_⟩
  · exact ⟨_, exec_rotl_of_legal ⟨hlow, hhigh⟩ a b s, rotl32_toNat _ _⟩
  · rw [exec_rotl_of_illegal (by omega), raise_eq, encode_rotl_eq_ofNat]
    rfl

end Sys2Proof.Machine
end

section
/-! Packing and unpacking as inverses, and what they say of the keystream view (spec/40_rotate_pack.md R124 to R128;
spec/10_state.md R38). -/

namespace Sys2Proof.Machine

/-- A word is determined by its four bytes (40_rotate_pack.md R128). -/
theorem word_ext_byteOf {v w : Word} (h : ∀ k, byteOf v k = byteOf w k) : v = w := by
  rw [← pack32le_byteOf v, h 0, h 1, h 2, h 3, pack32le_byteOf]

/-- The keystream view determines X: every byte of every word of X is a keystream byte (10_state.md R38). -/
theorem words_ext_keystreamByte {x y : Words} (h : ∀ j, keystreamByte x j = keystreamByte y j) : x = y := by
  refine Vector.ext fun i hi => word_ext_byteOf fun k => ?_
  have hbyte := h ⟨4 * i + k.val, by omega⟩
  rwa [keystreamByte_word x ⟨i, hi⟩ k, keystreamByte_word y ⟨i, hi⟩ k] at hbyte

/-- Unpacking a packed word gives the four bytes (40_rotate_pack.md R128). -/
theorem unpack32le_pack32le (b0 b1 b2 b3 : Byte) : unpack32le (pack32le b0 b1 b2 b3) = (b0, b1, b2, b3) := by
  obtain ⟨h0, h1, h2, h3⟩ := byteOf_pack32le b0 b1 b2 b3
  rw [unpack32le, h0, h1, h2, h3]

/-- Settles O22, from the two inverse laws and `words_ext_keystreamByte`. -/
theorem packAndUnpackAreInverse : Obligations.PackAndUnpackAreInverse :=
  ⟨unpack32le_pack32le, pack32le_byteOf, fun _ _ => ⟨words_ext_keystreamByte, fun h _ => h ▸ rfl⟩⟩

/-- The bytes of a word are its digits to the base 256 (40_rotate_pack.md R125). -/
theorem toNat_eq_bytes (w : Word) :
    w.toNat = (byteOf w 0).toNat + (byteOf w 1).toNat * 2 ^ 8 + (byteOf w 2).toNat * 2 ^ 16 +
      (byteOf w 3).toNat * 2 ^ 24 := by
  have hlt := w.isLt
  rw [byteOf_toNat, byteOf_toNat, byteOf_toNat, byteOf_toNat, Fin.val_zero, Fin.val_one, Fin.val_two,
    show (3 : Fin 4).val = 3 from rfl]
  omega

theorem pack32le_toNat (b0 b1 b2 b3 : Byte) :
    (pack32le b0 b1 b2 b3).toNat = b0.toNat + b1.toNat * 2 ^ 8 + b2.toNat * 2 ^ 16 + b3.toNat * 2 ^ 24 := by
  obtain ⟨h0, h1, h2, h3⟩ := byteOf_pack32le b0 b1 b2 b3
  rw [toNat_eq_bytes, h0, h1, h2, h3]

theorem bswap32_pack32le (b0 b1 b2 b3 : Byte) : bswap32 (pack32le b0 b1 b2 b3) = pack32le b3 b2 b1 b0 := by
  obtain ⟨h0, h1, h2, h3⟩ := byteOf_pack32le b0 b1 b2 b3
  rw [bswap32, h0, h1, h2, h3]

/-- Reversing the bytes twice restores the word (40_rotate_pack.md R126). -/
theorem bswap32_bswap32 (w : Word) : bswap32 (bswap32 w) = w := by
  calc bswap32 (bswap32 w)
      = pack32le (byteOf w 0) (byteOf w 1) (byteOf w 2) (byteOf w 3) := bswap32_pack32le ..
    _ = w := pack32le_byteOf w

/-- Settles O23, from the digits of a packed word and the byte reversal. -/
theorem packingAndByteSwapValues : Obligations.PackingAndByteSwapValues :=
  ⟨pack32le_toNat, bswap32_pack32le, bswap32_bswap32⟩

end Sys2Proof.Machine
end

section
/-! The quarter round as two half rounds and its inverse, and the QR command (spec/41_quarter_round.md R140 to R142). -/

namespace Sys2Proof.Machine

/-- A half round rotates by `n` and by `m` after its two additions: the first six of the twelve assignments of R140 with the
amounts 16 and 12, the last six with 8 and 7. -/
def halfRound (n m : RotAmount) : Word × Word × Word × Word → Word × Word × Word × Word
  | (a, b, c, d) =>
    let a1 := a + b
    let d1 := rotl32 (d ^^^ a1) n
    let c1 := c + d1
    (a1, rotl32 (b ^^^ c1) m, c1, d1)

/-- Half of R141's inverse: the six assignments undone from the last to the first, with the amounts `n` and `m`. -/
def invHalfRound (n m : RotAmount) : Word × Word × Word × Word → Word × Word × Word × Word
  | (a, b, c, d) =>
    let b0 := rotl32 b m ^^^ c
    (a - b0, b0, c - d, rotl32 d n ^^^ a)

theorem quarterRound_eq_halfRounds (a b c d : Word) :
    quarterRound a b c d = halfRound ⟨8, by decide⟩ ⟨7, by decide⟩ (halfRound ⟨16, by decide⟩ ⟨12, by decide⟩ (a, b, c, d)) :=
  rfl

theorem invQuarterRound_eq_invHalfRounds (a b c d : Word) :
    invQuarterRound a b c d =
      invHalfRound ⟨16, by decide⟩ ⟨20, by decide⟩ (invHalfRound ⟨24, by decide⟩ ⟨25, by decide⟩ (a, b, c, d)) :=
  rfl

/-- Each addition is undone by the subtraction, each rotation by the amount that completes 32. -/
theorem invHalfRound_halfRound {n m n' m' : RotAmount} (hn : n'.val = 32 - n.val) (hm : m'.val = 32 - m.val)
    (q : Word × Word × Word × Word) : invHalfRound n' m' (halfRound n m q) = q := by
  simp [halfRound, invHalfRound, rotl32_rotl32_cancel _ hn, rotl32_rotl32_cancel _ hm]

theorem halfRound_invHalfRound {n m n' m' : RotAmount} (hn : n.val = 32 - n'.val) (hm : m.val = 32 - m'.val)
    (q : Word × Word × Word × Word) : halfRound n m (invHalfRound n' m' q) = q := by
  simp [halfRound, invHalfRound, rotl32_rotl32_cancel _ hn, rotl32_rotl32_cancel _ hm]

theorem halfRound_zero (n m : RotAmount) : halfRound n m (0, 0, 0, 0) = (0, 0, 0, 0) := by
  have hrot : ∀ k, rotl32 0#32 k = 0#32 := rotl32_zero
  simp [halfRound, hrot]

/-- Settles O25: each half round is undone by its own inverse, the second one first. -/
theorem quarterRoundIsABijection : Obligations.QuarterRoundIsABijection := by
  refine ⟨fun a b c d => ?_, fun a b c d => ?_, ?_⟩
  · dsimp only
    rw [invQuarterRound_eq_invHalfRounds, quarterRound_eq_halfRounds, invHalfRound_halfRound rfl rfl,
      invHalfRound_halfRound rfl rfl]
  · dsimp only
    rw [quarterRound_eq_halfRounds, invQuarterRound_eq_invHalfRounds, halfRound_invHalfRound rfl rfl,
      halfRound_invHalfRound rfl rfl]
  · rw [quarterRound_eq_halfRounds, halfRound_zero, halfRound_zero]

/-- A rotation by a legal amount is the library's (40_rotate_pack.md R120). -/
theorem rotl32_eq_rotateLeft (x : Word) (n : RotAmount) : rotl32 x n = x.rotateLeft n.val := by
  rw [rotl32, BitVec.rotateLeft_eq_rotateLeftAux_of_lt (by omega), BitVec.rotateLeftAux]

/-- QR on four distinct indices completes and writes W alone (41_quarter_round.md R142). -/
theorem exec_qr_of_nodup {a b c d : WIndex} (h : [a, b, c, d].Nodup) (s : State) :
    exec (.qr a b c d) s = .next (s.withBlock { s.block with w := qrWords a b c d s.block.w }) :=
  if_pos ((distinctIndices_iff_nodup a b c d).mpr h)

theorem qrWords_of_not_mem {a b c d k : WIndex} (h : k ∉ [a, b, c, d]) (w : Words) : (qrWords a b c d w)[k] = w[k] := by
  simp only [List.mem_cons, List.not_mem_nil, or_false, not_or] at h
  obtain ⟨ha, hb, hc, hd⟩ := h
  exact qrWords_other a b c d w k ha hb hc hd

/-- Settles O24: the words named get the results of `quarterRound`, whose rotations are the library's. -/
theorem qrIsTheQuarterRound : Obligations.QrIsTheQuarterRound := by
  refine fun a b c d s h => ⟨_, exec_qr_of_nodup h s, fun i hi => qrWords_of_not_mem hi _, ?_⟩
  have hnamed := qrWords_named a b c d s.block.w ((distinctIndices_iff_nodup a b c d).mpr h)
  simpa only [quarterRound_eq_halfRounds, halfRound, rotl32_eq_rotateLeft] using hnamed

end Sys2Proof.Machine
end

section
/-! Quarter rounds on disjoint words commute, so a round is the same in any order (spec/41_quarter_round.md R143, R144,
R146). -/

namespace Sys2Proof.Machine

/-- `f` works on the words that `I` names: it writes no other word, and what it writes depends on no other. -/
def WorksOn (I : List WIndex) (f : Words → Words) : Prop :=
  (∀ w, ∀ k ∉ I, (f w)[k] = w[k]) ∧ ∀ v w : Words, (∀ i ∈ I, v[i] = w[i]) → ∀ k ∈ I, (f v)[k] = (f w)[k]

theorem qrWords_worksOn {a b c d : WIndex} (h : [a, b, c, d].Nodup) : WorksOn [a, b, c, d] (qrWords a b c d) := by
  refine ⟨fun w k hk => qrWords_of_not_mem hk w, fun v w hagree => ?_⟩
  have hnamed := fun u => qrWords_named a b c d u ((distinctIndices_iff_nodup a b c d).mpr h)
  obtain ⟨hva, hvb, hvc, hvd⟩ := hnamed v
  obtain ⟨hwa, hwb, hwc, hwd⟩ := hnamed w
  simp only [List.forall_mem_cons] at hagree ⊢
  obtain ⟨ha, hb, hc, hd, -⟩ := hagree
  simp [hva, hvb, hvc, hvd, hwa, hwb, hwc, hwd, ha, hb, hc, hd]

/-- On the words of the one, the other has changed nothing; elsewhere neither changes anything (R146). -/
theorem WorksOn.comm {I J : List WIndex} {f g : Words → Words} (hf : WorksOn I f) (hg : WorksOn J g)
    (hdisjoint : I.Disjoint J) (w : Words) : f (g w) = g (f w) := by
  obtain ⟨hfOther, hfOwn⟩ := hf
  obtain ⟨hgOther, hgOwn⟩ := hg
  have hword : ∀ k : WIndex, (f (g w))[k] = (g (f w))[k] := fun k => by
    by_cases hI : k ∈ I
    · rw [hgOther _ k (hdisjoint hI)]
      exact hfOwn _ _ (fun i hi => hgOther w i (hdisjoint hi)) k hI
    · rw [hfOther _ k hI]
      by_cases hJ : k ∈ J
      · exact hgOwn _ _ (fun i hi => (hfOther w i (hdisjoint.symm hi)).symm) k hJ
      · rw [hgOther _ k hJ, hgOther _ k hJ, hfOther _ k hI]
  exact Vector.ext fun k hk => hword ⟨k, hk⟩

/-- The order of two commands next to each other does not matter, whatever runs after them. -/
def Interchangeable (i j : Instr) : Prop :=
  ∀ (rest : List Instr) (s : State), execAll (i :: j :: rest) s = execAll (j :: i :: rest) s

theorem Interchangeable.symm {i j : Instr} (h : Interchangeable i j) : Interchangeable j i :=
  fun rest s => (h rest s).symm

theorem execAll_cons_of_next {i : Instr} {s t : State} (h : exec i s = .next t) (rest : List Instr) :
    execAll (i :: rest) s = execAll rest t := by
  rw [execAll, h]

theorem execAll_cons_congr {l l' : List Instr} (h : ∀ t, execAll l t = execAll l' t) (i : Instr) (s : State) :
    execAll (i :: l) s = execAll (i :: l') s := by
  simp only [execAll, h]

/-- A permutation is made of swaps of neighbours, so pairwise interchangeable commands may run in any order. -/
theorem execAll_perm {l l' : List Instr} (hperm : l.Perm l') (hl : l.Pairwise Interchangeable) (s : State) :
    execAll l s = execAll l' s := by
  induction hperm generalizing s with
  | nil => rfl
  | cons i _ ih => exact execAll_cons_congr (ih hl.of_cons) i s
  | swap i j l => exact List.rel_of_pairwise_cons hl List.mem_cons_self l s
  | trans hfirst _ ihfirst ihsecond =>
    rw [ihfirst hl, ihsecond (hl.perm hfirst Interchangeable.symm)]

/-- The two are QR commands that together name eight different words. -/
def disjointQrs : Instr → Instr → Bool
  | .qr a b c d, .qr e f g h => decide ([a, b, c, d] ++ [e, f, g, h]).Nodup
  | _, _ => false

theorem interchangeable_of_disjointQrs {i j : Instr} (hij : disjointQrs i j = true) : Interchangeable i j := by
  match i, j, hij with
  | .qr a b c d, .qr e f g h, hij =>
    obtain ⟨hi, hj, hdisjoint⟩ := List.nodup_append'.mp (of_decide_eq_true hij)
    intro rest s
    have hcomm := (qrWords_worksOn hi).comm (qrWords_worksOn hj) hdisjoint s.block.w
    calc execAll (.qr a b c d :: .qr e f g h :: rest) s
        = execAll rest (s.withBlock { s.block with w := qrWords e f g h (qrWords a b c d s.block.w) }) := by
          rw [execAll_cons_of_next (exec_qr_of_nodup hi s), execAll_cons_of_next (exec_qr_of_nodup hj _)]
          rfl
      _ = execAll rest (s.withBlock { s.block with w := qrWords a b c d (qrWords e f g h s.block.w) }) := by
          rw [hcomm]
      _ = execAll (.qr e f g h :: .qr a b c d :: rest) s := by
          rw [execAll_cons_of_next (exec_qr_of_nodup hj s), execAll_cons_of_next (exec_qr_of_nodup hi _)]
          rfl

/-- Commands that name disjoint words pairwise may run in any order (R146). -/
theorem execAll_perm_of_disjointQrs {cmds round : List Instr} (hround : round.Pairwise (disjointQrs · ·))
    (hperm : cmds.Perm round) (s : State) : execAll cmds s = execAll round s :=
  (execAll_perm hperm.symm (hround.imp interchangeable_of_disjointQrs) s).symm

/-- Settles O27: the four commands of a round name the sixteen words once each. -/
theorem roundOrderIsImmaterial : Obligations.RoundOrderIsImmaterial :=
  ⟨fun _ s hperm => execAll_perm_of_disjointQrs (by decide) hperm s,
    fun _ s hperm => execAll_perm_of_disjointQrs (by decide) hperm s⟩

end Sys2Proof.Machine
end

section
/-! The state initializer as numbers, and the INIT and COPY commands (spec/42_state_initializer.md R160 to R167;
spec/60_exceptions.md R242, R247). -/

namespace Sys2Proof.Machine

/-- The first row of the initialized matrix is the text `expand 32-byte k`, four characters a word (R161). -/
theorem initWords_constants (key : Vector Byte 32) (nonce : Vector Byte 12) (ctr : Word) :
    (initWords key nonce ctr)[0] = 0x61707865 ∧ (initWords key nonce ctr)[1] = 0x3320646E ∧
      (initWords key nonce ctr)[2] = 0x79622D32 ∧ (initWords key nonce ctr)[3] = 0x6B206574 :=
  ⟨rfl, rfl, rfl, rfl⟩

theorem keyWord_toNat (key : Vector Byte 32) (j : Fin 8) :
    (keyWord key j).toNat = key[4 * j.val].toNat + key[4 * j.val + 1].toNat * 2 ^ 8 +
      key[4 * j.val + 2].toNat * 2 ^ 16 + key[4 * j.val + 3].toNat * 2 ^ 24 :=
  pack32le_toNat ..

theorem nonceWord_toNat (nonce : Vector Byte 12) (j : Fin 3) :
    (nonceWord nonce j).toNat = nonce[4 * j.val].toNat + nonce[4 * j.val + 1].toNat * 2 ^ 8 +
      nonce[4 * j.val + 2].toNat * 2 ^ 16 + nonce[4 * j.val + 3].toNat * 2 ^ 24 :=
  pack32le_toNat ..

/-- With the one legal key length INIT completes and writes X alone (R165). -/
theorem exec_init_of_keyLen_eq {s : State} (h : s.block.keyLen = 32) :
    exec .init s = .next (s.withBlock { s.block with x := initWords s.block.key s.block.nonce s.block.ctr }) :=
  if_pos ((keyLenValid_iff _).mpr h)

/-- With any other key length INIT raises E_KEYLEN before any write (R165, 60_exceptions.md R242). -/
theorem exec_init_of_keyLen_ne {s : State} (h : s.block.keyLen ≠ 32) :
    exec .init s = .next (s.raise .eKeyLen (encode .init)) :=
  if_neg (mt (keyLenValid_iff _).mp h)

/-- Settles O28: the two branches of `execInit`, with the words of the initialized matrix row by row. -/
theorem initFillsTheMatrix : Obligations.InitFillsTheMatrix := by
  refine fun s => ⟨fun hvalid => ?_, fun hinvalid => ?_⟩
  · obtain ⟨h0, h1, h2, h3⟩ := initWords_constants s.block.key s.block.nonce s.block.ctr
    obtain ⟨hkey, hctr, hnonce⟩ := initWords_getElem s.block.key s.block.nonce s.block.ctr
    refine ⟨_, exec_init_of_keyLen_eq hvalid, h0, h1, h2, h3, fun j => ?_, hctr, fun j => ?_⟩
    · rw [hkey, keyWord_toNat]
    · rw [hnonce, nonceWord_toNat]
  · rw [exec_init_of_keyLen_ne hinvalid, raise_eq]
    rfl

/-- COPY completes in every state and writes W alone (R167). -/
theorem exec_copy (s : State) : exec .copy s = .next (s.withBlock { s.block with w := s.block.x }) := rfl

/-- Settles O29: the word is the encoding of COPY, and COPY has no precondition. -/
theorem copyCopiesXToW : Obligations.CopyCopiesXToW :=
  ⟨(decode_eq_cmd_iff rfl _).mpr rfl, exec_copy⟩

end Sys2Proof.Machine
end

section
/-! The test on ROUNDS and the PERMUTE command (spec/43_permutation.md R180, R181, R183; spec/60_exceptions.md R243, R247). -/

namespace Sys2Proof.Machine

theorem roundsValid_iff_bits (r : Word) :
    roundsValid r = true ↔ r.getLsbD 31 = false ∧ r.getLsbD 0 = false ∧ r ≠ 0 := by
  simp [roundsValid, and_assoc]

/-- The legal round counts are the even numbers from 2 to 2^31 - 2 (R180). -/
theorem roundsValid_iff_toNat (r : Word) :
    roundsValid r = true ↔ 0 < r.toNat ∧ r.toNat < 2 ^ 31 ∧ r.toNat % 2 = 0 := by
  have hsign : r.getLsbD 31 = false ↔ 2 * r.toNat < 2 ^ 32 := by
    rw [← BitVec.msb_eq_false_iff_two_mul_lt, BitVec.msb_eq_getLsbD_last]
  have heven : r.getLsbD 0 = false ↔ r.toNat % 2 = 0 := by
    rw [← BitVec.testBit_toNat, Nat.testBit_zero, decide_eq_false_iff_not]
    omega
  have hzero : r = 0 ↔ r.toNat = 0 := BitVec.toNat_inj.symm
  rw [roundsValid_iff_bits, hsign, heven, Ne, hzero]
  omega

/-- Settles O30: as a signed number, a word below 2^31 is itself and any other is negative. -/
theorem roundsValidIsPositiveAndEven : Obligations.RoundsValidIsPositiveAndEven := by
  refine fun r => ⟨?_, roundsValid_iff_bits r⟩
  have hlt := r.isLt
  rw [roundsValid_iff_toNat, BitVec.toInt_eq_toNat_cond]
  split <;> omega

theorem permuteW_eq_iterate (r : Word) (b : Block) :
    permuteW r b = { b with w := doubleRound^[r.toNat / 2] b.w } := by
  rw [permuteW, doubleRounds_eq_iterate]

/-- With a valid round count PERMUTE completes, whatever KEY_LEN is (R183). -/
theorem exec_permute_of_rounds_valid {s : State} (h : roundsValid s.block.rounds = true) :
    exec .permute s = .next (s.withBlock (permuteW s.block.rounds s.block)) :=
  if_pos h

/-- With any other round count PERMUTE raises E_ROUNDS before any write (R183, 60_exceptions.md R243). -/
theorem exec_permute_of_rounds_invalid {s : State} (h : roundsValid s.block.rounds = false) :
    exec .permute s = .next (s.raise .eRounds (encode .permute)) :=
  if_neg (Bool.eq_false_iff.mp h)

theorem exec_permute_withRounds {r : Word} (h : roundsValid r = true) (s : State) :
    exec .permute (s.withRounds r) = .next ((s.withRounds r).withBlock
      { s.block with rounds := r, w := doubleRound^[r.toNat / 2] s.block.w }) := by
  have hrounds : roundsValid (s.withRounds r).block.rounds = true := h
  rw [exec_permute_of_rounds_valid hrounds, permuteW_eq_iterate]
  rfl

/-- Settles O31: the two branches of `execPermute`, with the loop as an iterate of the double round. -/
theorem permuteRunsHalfTheRoundCount : Obligations.PermuteRunsHalfTheRoundCount := by
  refine fun s => ⟨fun hvalid => ?_, fun hinvalid => ?_⟩
  · rw [exec_permute_of_rounds_valid hvalid, permuteW_eq_iterate]
    rfl
  · rw [exec_permute_of_rounds_invalid hinvalid, raise_eq]
    rfl

end Sys2Proof.Machine
end

section
/-! The rounds as command sequences of the host (spec/30_encoding.md R100; spec/41_quarter_round.md R143 to R145;
spec/43_permutation.md R184). -/

namespace Sys2Proof.Machine

/-- The commands complete from every state, change W by `f` and change nothing else. -/
def ActsOnW (cmds : List Instr) (f : Words → Words) : Prop :=
  ∀ s, execAll cmds s = .next (s.withBlock { s.block with w := f s.block.w })

theorem execAll_append_of_next {l : List Instr} {s t : State} (h : execAll l s = .next t) (l' : List Instr) :
    execAll (l ++ l') s = execAll l' t := by
  induction l generalizing s with
  | nil =>
    obtain rfl : s = t := by simpa [execAll] using h
    rfl
  | cons i l ih =>
    simp only [List.cons_append, execAll] at h ⊢
    split at h
    · exact ih h
    · simp at h
    · simp at h

theorem ActsOnW.nil : ActsOnW [] id := fun _ => rfl

theorem ActsOnW.append {l l' : List Instr} {f g : Words → Words} (hf : ActsOnW l f) (hg : ActsOnW l' g) :
    ActsOnW (l ++ l') (g ∘ f) := fun s => by
  rw [execAll_append_of_next (hf s), hg]
  rfl

theorem ActsOnW.qr_cons {a b c d : WIndex} {l : List Instr} {f : Words → Words} (hl : ActsOnW l f)
    (h : [a, b, c, d].Nodup) : ActsOnW (.qr a b c d :: l) (f ∘ qrWords a b c d) := fun s => by
  rw [execAll_cons_of_next (exec_qr_of_nodup h s), hl]
  rfl

/-- The sequence issued `n` times changes W by the `n`-th iterate. -/
theorem ActsOnW.flatten_replicate {l : List Instr} {f : Words → Words} (hl : ActsOnW l f) (n : Nat) :
    ActsOnW (List.replicate n l).flatten f^[n] := by
  induction n with
  | zero => exact .nil
  | succ n ih =>
    rw [List.replicate_succ, List.flatten_cons, Function.iterate_succ]
    exact hl.append ih

/-- COLROUND is the column round (R143). -/
theorem colroundCmds_actsOnW : ActsOnW colroundCmds columnRound :=
  .qr_cons (.qr_cons (.qr_cons (.qr_cons .nil (by decide)) (by decide)) (by decide)) (by decide)

/-- DIAGROUND is the diagonal round (R144). -/
theorem diagroundCmds_actsOnW : ActsOnW diagroundCmds diagonalRound :=
  .qr_cons (.qr_cons (.qr_cons (.qr_cons .nil (by decide)) (by decide)) (by decide)) (by decide)

/-- DROUND is the double round (R145). -/
theorem droundCmds_actsOnW : ActsOnW (colroundCmds ++ diagroundCmds) doubleRound :=
  colroundCmds_actsOnW.append diagroundCmds_actsOnW

/-- Settles O32: both sides change W by the `n`-th iterate of the double round. -/
theorem permuteEqualsIssuedDoubleRounds : Obligations.PermuteEqualsIssuedDoubleRounds := by
  intro s n hpos hlt
  have hcount : (BitVec.ofNat 32 (2 * n)).toNat = 2 * n := by
    rw [BitVec.toNat_ofNat]
    omega
  have hvalid : roundsValid (BitVec.ofNat 32 (2 * n)) = true := by
    rw [roundsValid_iff_toNat, hcount]
    omega
  have hhalf : (BitVec.ofNat 32 (2 * n)).toNat / 2 = n := by omega
  refine ⟨doubleRound^[n] s.block.w, droundCmds_actsOnW.flatten_replicate n s, ?_⟩
  rw [exec_permute_withRounds hvalid, hhalf]

end Sys2Proof.Machine
end

section
/-! The laws of the permutation (spec/43_permutation.md R182). -/

namespace Sys2Proof.Machine

theorem quarterRound_injective {a b c d a' b' c' d' : Word} (h : quarterRound a b c d = quarterRound a' b' c' d') :
    (a, b, c, d) = (a', b', c', d') := by
  obtain ⟨hinv, -, -⟩ := quarterRoundIsABijection
  calc (a, b, c, d)
      = (let r := quarterRound a b c d; invQuarterRound r.1 r.2.1 r.2.2.1 r.2.2.2) := (hinv a b c d).symm
    _ = (let r := quarterRound a' b' c' d'; invQuarterRound r.1 r.2.1 r.2.2.1 r.2.2.2) := by rw [h]
    _ = (a', b', c', d') := hinv a' b' c' d'

/-- The four named words can be recovered because the quarter round is injective, the others because QR keeps them. -/
theorem qrWords_injective {a b c d : WIndex} (h : [a, b, c, d].Nodup) : Function.Injective (qrWords a b c d) := by
  intro v w hvw
  have hnamed := fun u => qrWords_named a b c d u ((distinctIndices_iff_nodup a b c d).mpr h)
  obtain ⟨hva, hvb, hvc, hvd⟩ := hnamed v
  obtain ⟨hwa, hwb, hwc, hwd⟩ := hnamed w
  rw [hvw] at hva hvb hvc hvd
  have hquad : quarterRound v[a] v[b] v[c] v[d] = quarterRound w[a] w[b] w[c] w[d] :=
    Prod.ext (hva.symm.trans hwa) (Prod.ext (hvb.symm.trans hwb) (Prod.ext (hvc.symm.trans hwc) (hvd.symm.trans hwd)))
  have hmem : ∀ k ∈ [a, b, c, d], v[k] = w[k] := by
    simpa only [Prod.mk.injEq, List.forall_mem_cons, List.not_mem_nil, false_imp_iff, implies_true, and_true]
      using quarterRound_injective hquad
  have hword : ∀ k : WIndex, v[k] = w[k] := fun k => by
    by_cases hk : k ∈ [a, b, c, d]
    · exact hmem k hk
    · rw [← qrWords_of_not_mem hk v, hvw, qrWords_of_not_mem hk w]
  exact Vector.ext fun k hk => hword ⟨k, hk⟩

/-- W has finitely many values (2^512). -/
theorem finite_words : Finite Words :=
  Finite.of_injective (fun (w : Words) (k : WIndex) => w[k])
    fun _ _ h => Vector.ext fun k hk => congrFun h ⟨k, hk⟩

theorem qrWords_bijective {a b c d : WIndex} (h : [a, b, c, d].Nodup) : Function.Bijective (qrWords a b c d) :=
  have := finite_words
  Finite.injective_iff_bijective.mp (qrWords_injective h)

theorem columnRound_bijective : Function.Bijective columnRound :=
  (qrWords_bijective (by decide)).comp <| (qrWords_bijective (by decide)).comp <|
    (qrWords_bijective (by decide)).comp <| qrWords_bijective (by decide)

theorem diagonalRound_bijective : Function.Bijective diagonalRound :=
  (qrWords_bijective (by decide)).comp <| (qrWords_bijective (by decide)).comp <|
    (qrWords_bijective (by decide)).comp <| qrWords_bijective (by decide)

theorem doubleRound_bijective : Function.Bijective doubleRound :=
  diagonalRound_bijective.comp columnRound_bijective

@[simp] theorem qrWords_zero (a b c d : WIndex) : qrWords a b c d (Vector.replicate 16 0) = Vector.replicate 16 0 := by
  obtain ⟨-, -, hzero⟩ := quarterRoundIsABijection
  simp only [qrWords, Fin.getElem_fin, Vector.getElem_replicate, hzero, Vector.set_replicate_self]

theorem doubleRound_zero : doubleRound (Vector.replicate 16 0) = Vector.replicate 16 0 := by
  simp only [doubleRound, columnRound, diagonalRound, qrWords_zero]

/-- Halves of even counts add up to the half of the sum. -/
theorem permuteW_permuteW {r1 r2 r3 : Word} (hfirst : r1.toNat % 2 = 0) (hsum : r3.toNat = r1.toNat + r2.toNat)
    (b : Block) : permuteW r2 (permuteW r1 b) = permuteW r3 b := by
  have hhalf : r3.toNat / 2 = r2.toNat / 2 + r1.toNat / 2 := by omega
  simp only [permuteW_eq_iterate, hhalf, Function.iterate_add_apply]

/-- Settles O33: `n` double rounds are an iterate of a bijection that fixes the all-zero W. -/
theorem permutationLaws : Obligations.PermutationLaws := by
  refine ⟨fun n => ?_, fun n => ?_, fun r1 r2 r3 b hfirst _ _ hsum => ?_⟩
  · rw [funext (doubleRounds_eq_iterate n)]
    exact doubleRound_bijective.iterate n
  · rw [doubleRounds_eq_iterate]
    exact Function.iterate_fixed doubleRound_zero n
  · obtain ⟨-, -, heven⟩ := (roundsValid_iff_toNat r1).mp hfirst
    exact permuteW_permuteW heven hsum b

end Sys2Proof.Machine
end

section
/-! The FINAL and BLOCK commands, and BLOCK as its four stages (spec/44_finalizer_block.md R190 to R196; spec/60_exceptions.md
R242, R243, R247). -/

namespace Sys2Proof.Machine

/-- FINAL completes in every state and writes X alone (R190). -/
theorem exec_final (s : State) :
    exec .final s = .next (s.withBlock { s.block with x := addWords s.block.x s.block.w }) := rfl

/-- Settles O34: word by word, `addWords` is the addition of words. -/
theorem finalAddsWordByWord : Obligations.FinalAddsWordByWord := by
  refine fun s => ⟨_, exec_final s, fun i => ?_⟩
  rw [addWords_getElem, BitVec.toNat_add]

/-- With a legal key length and round count BLOCK completes and writes X and W alone (R193, R195). -/
theorem exec_block_of_valid {s : State} (hkey : s.block.keyLen = 32) (hrounds : roundsValid s.block.rounds = true) :
    exec .block s = .next (s.withBlock { s.block with
      x := blockX s.block.key s.block.nonce s.block.ctr s.block.rounds
      w := blockW s.block.key s.block.nonce s.block.ctr s.block.rounds }) := by
  rw [← buildBlock_eq]
  exact (if_pos ((keyLenValid_iff _).mpr hkey)).trans (if_pos hrounds)

/-- With a wrong key length BLOCK raises E_KEYLEN, whatever ROUNDS is (R196, 60_exceptions.md R242). -/
theorem exec_block_of_keyLen_ne {s : State} (h : s.block.keyLen ≠ 32) :
    exec .block s = .next (s.raise .eKeyLen (encode .block)) :=
  if_neg (mt (keyLenValid_iff _).mp h)

/-- With a bad round count BLOCK raises E_ROUNDS before any write (R196, 60_exceptions.md R243). -/
theorem exec_block_of_rounds_invalid {s : State} (hkey : s.block.keyLen = 32)
    (hrounds : roundsValid s.block.rounds = false) :
    exec .block s = .next (s.raise .eRounds (encode .block)) :=
  (if_pos ((keyLenValid_iff _).mpr hkey)).trans (if_neg (Bool.eq_false_iff.mp hrounds))

/-- Settles O36: INIT leaves the matrix from which `blockW` and `blockX` are built. -/
theorem blockBuildsTheKeystreamBlock : Obligations.BlockBuildsTheKeystreamBlock := fun _ hkey hrounds =>
  ⟨_, _, _, exec_block_of_valid hkey hrounds, exec_init_of_keyLen_eq hkey, doubleRounds_eq_iterate _ _,
    addWords_getElem _ _⟩

/-- The machine whose X and W both hold the initialized matrix, as INIT and COPY leave them (42_state_initializer.md R160,
R167). -/
def State.initCopied (s : State) : State :=
  s.withBlock { s.block with
    x := initWords s.block.key s.block.nonce s.block.ctr
    w := initWords s.block.key s.block.nonce s.block.ctr }

/-- INIT and COPY complete whatever ROUNDS is. -/
theorem execAll_init_copy {s : State} (hkey : s.block.keyLen = 32) (rest : List Instr) :
    execAll (.init :: .copy :: rest) s = execAll rest s.initCopied := by
  rw [execAll_cons_of_next (exec_init_of_keyLen_eq hkey), execAll_cons_of_next (exec_copy _)]
  rfl

/-- PERMUTE and FINAL turn the two copies of the initialized matrix into the block that BLOCK builds (R193). -/
theorem execAll_permute_final_initCopied {s : State} (hkey : s.block.keyLen = 32)
    (hrounds : roundsValid s.block.rounds = true) : execAll [.permute, .final] s.initCopied = exec .block s := by
  have hpermute := exec_permute_of_rounds_valid (s := s.initCopied) hrounds
  rw [execAll_cons_of_next hpermute, execAll_cons_of_next (exec_final _), exec_block_of_valid hkey hrounds]
  rfl

/-- Settles O37: both sides test the same registers, BLOCK at its start and the stages one by one. -/
theorem blockEqualsTheStageCommands : Obligations.BlockEqualsTheStageCommands := by
  refine fun s => ⟨fun hkey hrounds => ?_, fun hkey hrounds => ⟨?_, _, exec_init_of_keyLen_eq hkey, ?_⟩, fun hkey => ?_⟩
  · rw [execAll_init_copy hkey, execAll_permute_final_initCopied hkey hrounds]
  · exact exec_block_of_rounds_invalid hkey hrounds
  · have hpermute := exec_permute_of_rounds_invalid (s := s.initCopied) hrounds
    rw [execAll_init_copy hkey, execAll_cons_of_next hpermute]
    rfl
  · exact exec_block_of_keyLen_ne hkey

/-- Settles O38: by `exec_block_of_valid` the words built are functions of KEY, NONCE, CTR and ROUNDS. -/
theorem blockForgetsOldXAndW : Obligations.BlockForgetsOldXAndW := by
  intro s t s' t' hkey hnonce hctr hrounds hs ht hvalid hs' ht'
  rw [exec_block_of_valid hs hvalid] at hs'
  rw [exec_block_of_valid ht (hrounds ▸ hvalid)] at ht'
  obtain rfl := Host.Outcome.next.inj hs'
  obtain rfl := Host.Outcome.next.inj ht'
  simp only [withBlock_block, hkey, hnonce, hctr, hrounds, and_self]

end Sys2Proof.Machine
end

section
/-! A whole CIPHER command as functions of the block and of memory, and what follows for one command, for the same command
twice and for one chunk alone (spec/45_keystream_cipher.md R210 to R216, R220). -/

namespace Sys2Proof.Machine

/-- The machine after a whole CIPHER command that runs its loop (45_keystream_cipher.md R210). -/
def State.ciphered (s : State) : State := cipherEnd s (cipherBytes s.block.bufLen.toNat 0 (cipherStart s))

/-- The number of blocks that a CIPHER command builds, ceil(BUF_LEN / 64) (45_keystream_cipher.md R211). -/
def Block.chunks (b : Block) : Nat := (b.bufLen.toNat + 63) / 64

/-- The block after a CIPHER command that runs its loop: X and W are those of the last block built, whose counter is one less
than CCTR (45_keystream_cipher.md R213, R214). -/
def Block.ciphered (b : Block) : Block :=
  { b with
    x := if b.bufLen = 0 then b.x else blockX b.key b.nonce (b.ctr + BitVec.ofNat 32 b.chunks - 1) b.rounds
    w := if b.bufLen = 0 then b.w else blockW b.key b.nonce (b.ctr + BitVec.ofNat 32 b.chunks - 1) b.rounds
    cctr := b.ctr + BitVec.ofNat 32 b.chunks
    nblk := BitVec.ofNat 32 b.chunks }

/-- The keystream byte for byte `i` of the working buffer (45_keystream_cipher.md R212). -/
def Block.streamByte (b : Block) (i : Nat) : Byte :=
  keystreamByte (blockX b.key b.nonce (b.ctr + BitVec.ofNat 32 (i / 64)) b.rounds) (Fin.ofNat 64 i)

theorem toNat_ofNat_of_lt {n : Nat} (h : n < 2 ^ 32) : (BitVec.ofNat 32 n).toNat = n :=
  (BitVec.toNat_ofNat n 32).trans (Nat.mod_eq_of_lt h)

theorem add_ofNat_sub_one (a : Word) {n : Nat} (h : n ≠ 0) : a + BitVec.ofNat 32 n - 1 = a + BitVec.ofNat 32 (n - 1) := by
  obtain ⟨k, rfl⟩ := Nat.exists_eq_succ_of_ne_zero h
  rw [Nat.succ_sub_one, Nat.succ_eq_add_one, BitVec.ofNat_add, ← BitVec.add_assoc]
  exact BitVec.add_sub_cancel _ _

/-- The keystream block has 64 bytes, so a whole number of blocks does not move the index in it. -/
theorem fin_ofNat_chunks_add {m : Nat} (hm : m % 64 = 0) (i : Nat) : Fin.ofNat 64 (m + i) = Fin.ofNat 64 i := by
  have hmod : (m + i) % 64 = i % 64 := by omega
  exact Fin.ext hmod

theorem bufLen_eq_zero_iff (b : Block) : b.bufLen = 0 ↔ b.bufLen.toNat = 0 := BitVec.toNat_inj.symm

theorem chunks_ne_zero {b : Block} (h : b.bufLen ≠ 0) : b.chunks ≠ 0 := by
  rw [Ne, bufLen_eq_zero_iff] at h
  rw [Block.chunks]
  omega

/-- The block after the command, from what the loop has done after the last byte (45_keystream_cipher.md R210 to R214). -/
theorem ciphered_block (s : State) : s.ciphered.block = s.block.ciphered := by
  obtain ⟨hblock, hempty, hlast, hcc, hnb, -, -, -⟩ := cipherBytes_spec s _ s.block.bufLen.isLt
  rw [State.ciphered, cipherEnd, hblock, hcc, hnb, Block.ciphered]
  by_cases hlen : s.block.bufLen = 0
  · obtain ⟨hx, hw⟩ := hempty ((bufLen_eq_zero_iff _).mp hlen)
    rw [if_pos hlen, if_pos hlen, hx, hw]
    rfl
  · obtain ⟨hx, hw⟩ := hlast (mt (bufLen_eq_zero_iff _).mpr hlen)
    rw [if_neg hlen, if_neg hlen, hx, hw, add_ofNat_sub_one _ (chunks_ne_zero hlen)]
    rfl

@[simp] theorem ciphered_keyLen (s : State) : s.ciphered.block.keyLen = s.block.keyLen := by rw [ciphered_block]; rfl
@[simp] theorem ciphered_rounds (s : State) : s.ciphered.block.rounds = s.block.rounds := by rw [ciphered_block]; rfl
@[simp] theorem ciphered_bufAddr (s : State) : s.ciphered.block.bufAddr = s.block.bufAddr := by rw [ciphered_block]; rfl
@[simp] theorem ciphered_bufLen (s : State) : s.ciphered.block.bufLen = s.block.bufLen := by rw [ciphered_block]; rfl
@[simp] theorem ciphered_fault (s : State) : s.ciphered.block.fault = s.block.fault := by rw [ciphered_block]; rfl

theorem ciphered_readByte_buffer {s : State} {i : Nat} (hi : i < s.block.bufLen.toNat) :
    s.ciphered.mem.readByte (bufferAddr s.block i) =
      s.mem.readByte (bufferAddr s.block i) ^^^ s.block.streamByte i := by
  obtain ⟨-, -, -, -, -, hin, -, -⟩ := cipherBytes_spec s _ s.block.bufLen.isLt
  exact hin i hi

theorem ciphered_readByte_other {s : State} {a : Addr} (h : ∀ i, i < s.block.bufLen.toNat → a ≠ bufferAddr s.block i) :
    s.ciphered.mem.readByte a = s.mem.readByte a :=
  cipherEnd_readByte_other h

theorem ciphered_mem_wf {s : State} (h : s.mem.wf = true) : s.ciphered.mem.wf = true := by
  obtain ⟨-, -, -, -, -, -, -, hwf⟩ := cipherBytes_spec s _ s.block.bufLen.isLt
  exact hwf h

theorem exec_cipher_of_runs {s : State} (h : cipherRuns s) : exec .cipher s = .next s.ciphered := execCipher_of_runs h

theorem eq_ciphered_of_exec {s t : State} (hruns : cipherRuns s) (h : exec .cipher s = .next t) : t = s.ciphered :=
  Host.Outcome.next.inj (h.symm.trans (exec_cipher_of_runs hruns))

/-- A CIPHER command that leaves an unfaulted block has met its preconditions and run its loop. -/
theorem cipherRuns_of_exec {s t : State} (h : exec .cipher s = .next t) (hfault : t.block.fault = false) :
    cipherRuns s ∧ t = s.ciphered := by
  obtain ⟨c, -, rfl⟩ | ⟨hne, -⟩ | ⟨-, hruns, rfl⟩ := exec_next_cases h
  · simp at hfault
  · exact absurd rfl hne
  · exact ⟨hruns, rfl⟩

theorem cipherRuns_iff (s : State) : cipherRuns s ↔
    s.block.keyLen = 32 ∧ (s.block.bufLen ≠ 0 → roundsValid s.block.rounds = true) ∧
      ∀ i, i < s.block.bufLen.toNat → admits s.map (bufferAddr s.block i) = true := by
  rw [cipherRuns, bufferAdmitted_iff]

theorem bufferAddr_of_offset {b b' : Block} {k : Nat} (haddr : b'.bufAddr = b.bufAddr + BitVec.ofNat 32 k) (i : Nat) :
    bufferAddr b' i = bufferAddr b (k + i) := by
  rw [bufferAddr, bufferAddr, haddr, BitVec.add_assoc, BitVec.ofNat_add]

/-- The preconditions of CIPHER hold of every part of a working buffer of which they hold, whatever the counter is. -/
theorem cipherRuns_of_part {s s' : State} {k : Nat} (hruns : cipherRuns s) (hmap : s'.map = s.map)
    (hkey : s'.block.keyLen = s.block.keyLen) (hrounds : s'.block.rounds = s.block.rounds)
    (haddr : s'.block.bufAddr = s.block.bufAddr + BitVec.ofNat 32 k)
    (hlen : k + s'.block.bufLen.toNat ≤ s.block.bufLen.toNat) : cipherRuns s' := by
  rw [cipherRuns_iff] at hruns ⊢
  obtain ⟨hkey32, hvalid, hadmit⟩ := hruns
  refine ⟨hkey.trans hkey32, fun hne => ?_, fun i hi => ?_⟩
  · rw [hrounds]
    refine hvalid fun hzero => hne ?_
    rw [bufLen_eq_zero_iff] at hzero ⊢
    omega
  · rw [hmap, bufferAddr_of_offset haddr]
    exact hadmit _ (by omega)

/-- The block that BLOCK builds for another counter value (44_finalizer_block.md R194). -/
theorem words_of_exec_block_withCtr {s u : State} {c : Word} (hkey : s.block.keyLen = 32)
    (hrounds : roundsValid s.block.rounds = true) (h : exec .block (s.withCtr c) = .next u) :
    u.block.x = blockX s.block.key s.block.nonce c s.block.rounds ∧
      u.block.w = blockW s.block.key s.block.nonce c s.block.rounds := by
  have hblock := exec_block_of_valid (s := s.withCtr c) hkey hrounds
  obtain rfl := Host.Outcome.next.inj (h.symm.trans hblock)
  exact ⟨rfl, rfl⟩

/-- NBLK holds the number of blocks exactly: it is at most 2^26 (10_state.md R34). -/
theorem Block.ciphered_nblk_toNat (b : Block) : b.ciphered.nblk.toNat = b.chunks := by
  have hlen := b.bufLen.isLt
  have hlt : b.chunks < 2 ^ 32 := by
    rw [Block.chunks]
    omega
  exact toNat_ofNat_of_lt hlt

/-- Settles O39: memory and the block are those of `State.ciphered`, and BLOCK builds the same blocks. -/
theorem cipherXorsTheKeystream : Obligations.CipherXorsTheKeystream := by
  intro s hkey hrounds hadmit
  refine ⟨s.ciphered, exec_cipher_of_runs ((cipherRuns_iff s).mpr ⟨hkey, hrounds, hadmit⟩), fun i hi u hu => ?_,
    fun a ha => ciphered_readByte_other ha, ?_⟩
  · have hne : s.block.bufLen ≠ 0 := fun hzero => by simp [hzero] at hi
    obtain ⟨hx, -⟩ := words_of_exec_block_withCtr hkey (hrounds hne) hu
    rw [hx]
    exact ciphered_readByte_buffer hi
  · rw [ciphered_block]
    refine ⟨Block.ciphered_nblk_toNat _, rfl, fun hzero => ⟨if_pos hzero, if_pos hzero⟩, fun hne u hu => ?_,
      rfl, rfl, rfl, rfl⟩
    obtain ⟨hx, hw⟩ := words_of_exec_block_withCtr hkey (hrounds hne) hu
    exact ⟨(if_neg hne).trans hx.symm, (if_neg hne).trans hw.symm⟩

/-- A second command leaves the same block: what it writes depends on the parameters alone, or the buffer is empty and X and
W stay. -/
theorem Block.ciphered_ciphered (b : Block) : b.ciphered.ciphered = b.ciphered := by
  by_cases hlen : b.bufLen = 0
  · simp only [Block.ciphered, Block.chunks, if_pos hlen]
  · simp only [Block.ciphered, Block.chunks, if_neg hlen]

/-- The second exclusive-or with the same keystream undoes the first (45_keystream_cipher.md R216). -/
theorem ciphered_ciphered_readByte (s : State) (a : Addr) : s.ciphered.ciphered.mem.readByte a = s.mem.readByte a := by
  have hlen := ciphered_bufLen s
  have haddr := bufferAddr_congr (ciphered_bufAddr s)
  have hstream : ∀ i, s.ciphered.block.streamByte i = s.block.streamByte i := by rw [ciphered_block]; exact fun _ => rfl
  by_cases ha : ∃ i, i < s.block.bufLen.toNat ∧ a = bufferAddr s.block i
  · obtain ⟨i, hi, rfl⟩ := ha
    have hagain := ciphered_readByte_buffer (s := s.ciphered) (i := i) (hlen ▸ hi)
    rw [haddr, hstream] at hagain
    rw [hagain, ciphered_readByte_buffer hi, BitVec.xor_assoc, BitVec.xor_self, BitVec.xor_zero]
  · have hother : ∀ i, i < s.block.bufLen.toNat → a ≠ bufferAddr s.block i := fun i hi h => ha ⟨i, hi, h⟩
    have hagain := ciphered_readByte_other (s := s.ciphered) (a := a) fun i hi => haddr i ▸ hother i (hlen ▸ hi)
    rw [hagain, ciphered_readByte_other hother]

/-- Settles O43: the second command meets the preconditions of the first and exclusive-ors the same bytes. -/
theorem cipherTwiceRestoresMemory : Obligations.CipherTwiceRestoresMemory := by
  intro s t h hfault
  obtain ⟨hruns, rfl⟩ := cipherRuns_of_exec h hfault
  have hagain : cipherRuns s.ciphered :=
    cipherRuns_of_part (k := 0) hruns rfl (by simp) (by simp) (by simp) (by simp)
  refine ⟨_, exec_cipher_of_runs hagain, ciphered_ciphered_readByte s, fun hwf => ?_, ?_⟩
  · exact memory_ext (ciphered_mem_wf (ciphered_mem_wf hwf)) hwf (ciphered_ciphered_readByte s)
  · rw [ciphered_block, ciphered_block, Block.ciphered_ciphered]

/-- The machine set up for a CIPHER over the `n` bytes at byte 64q of the working buffer, with the counter C + q
(45_keystream_cipher.md R220). -/
def State.chunkAt (s : State) (q n : Nat) : State :=
  (s.withCtr (s.block.ctr + BitVec.ofNat 32 q)).withBuffer
    (s.block.bufAddr + BitVec.ofNat 32 (64 * q)) (BitVec.ofNat 32 n)

theorem chunkAt_bufferAddr (s : State) (q n i : Nat) :
    bufferAddr (s.chunkAt q n).block i = bufferAddr s.block (64 * q + i) :=
  bufferAddr_of_offset rfl i

/-- Byte 64q + i of the message lies i div 64 blocks after block q. -/
theorem chunkAt_streamByte (s : State) (q n i : Nat) :
    (s.chunkAt q n).block.streamByte i = s.block.streamByte (64 * q + i) := by
  have hindex : (64 * q + i) / 64 = q + i / 64 := by omega
  rw [Block.streamByte, Block.streamByte, fin_ofNat_chunks_add (by omega), hindex, BitVec.ofNat_add, ← BitVec.add_assoc]
  rfl

/-- Settles O45: in both commands the byte is exclusive-ored with the same keystream byte. -/
theorem cipherRandomAccess : Obligations.CipherRandomAccess := by
  intro s t u q n _ hn hlen ht htfault hu i hi
  obtain ⟨hruns, rfl⟩ := cipherRuns_of_exec ht htfault
  have hcount : (s.chunkAt q n).block.bufLen.toNat = n := toNat_ofNat_of_lt (by omega)
  have hpart : cipherRuns (s.chunkAt q n) := cipherRuns_of_part (k := 64 * q) hruns rfl rfl rfl rfl (by omega)
  obtain rfl := eq_ciphered_of_exec hpart hu
  have hchunk := ciphered_readByte_buffer (s := s.chunkAt q n) (i := i) (by omega)
  rw [chunkAt_bufferAddr, chunkAt_streamByte] at hchunk
  exact hchunk.trans (ciphered_readByte_buffer (s := s) (by omega)).symm

/-- Settles O40: an empty buffer is admitted whatever the map is, and its loop has no byte. -/
theorem cipherOfAnEmptyBuffer : Obligations.CipherOfAnEmptyBuffer := by
  refine fun s hlen => ⟨fun hkey => ?_, exec_cipher_of_keyLen_ne⟩
  have hruns : cipherRuns s := (cipherRuns_iff s).mpr ⟨hkey, fun hne => absurd hlen hne, by simp [hlen]⟩
  rw [exec_cipher_of_runs hruns, State.ciphered, hlen]
  rfl

end Sys2Proof.Machine
end

section
/-! Two CIPHER commands over adjacent buffers as one (spec/45_keystream_cipher.md R219). -/

namespace Sys2Proof.Machine

/-- The run `c'` is where `c` is, with the bytes counted from byte `m` of the buffer of `c`: everything that the loop reads
agrees (45_keystream_cipher.md R211, R212). -/
structure CipherRun.Follows (m : Nat) (c c' : CipherRun) : Prop where
  mem : c'.mem = c.mem
  cc : c'.cc = c.cc
  x : c'.block.x = c.block.x
  w : c'.block.w = c.block.w
  key : c'.block.key = c.block.key
  nonce : c'.block.nonce = c.block.nonce
  rounds : c'.block.rounds = c.block.rounds
  bufAddr : c'.block.bufAddr = c.block.bufAddr + BitVec.ofNat 32 m

/-- Both runs meet a chunk boundary at the same bytes, because `m` is a multiple of 64. -/
theorem follows_chunkBoundary {m : Nat} {c c' : CipherRun} (h : c.Follows m c') (hm : m % 64 = 0) (i : Nat) :
    (chunkBoundary (m + i) c).Follows m (chunkBoundary i c') := by
  have hmod : (m + i) % 64 = i % 64 := by omega
  unfold chunkBoundary
  rw [hmod]
  split
  · constructor <;> simp [buildBlock_eq, h.mem, h.cc, h.key, h.nonce, h.rounds, h.bufAddr]
  · exact h

/-- The byte written is at the same address, and the keystream index repeats every 64 bytes. -/
theorem follows_xorByte {m : Nat} {c c' : CipherRun} (h : c.Follows m c') (hm : m % 64 = 0) (i : Nat) :
    (xorByte (m + i) c).Follows m (xorByte i c') := by
  refine { h with mem := ?_ }
  simp only [xorByte, bufferAddr_of_offset h.bufAddr, h.mem, h.x, fin_ofNat_chunks_add hm]

theorem follows_cipherBytes {m : Nat} {c c' : CipherRun} (h : c.Follows m c') (hm : m % 64 = 0) (n i : Nat) :
    (cipherBytes n (m + i) c).Follows m (cipherBytes n i c') := by
  induction n generalizing i c c' with
  | zero => exact h
  | succ n ih => exact ih (follows_xorByte (follows_chunkBoundary h hm i) hm i) (i + 1)

/-- The machine set up for a CIPHER over the first `m` bytes of its working buffer. -/
def State.firstPart (s : State) (m : Nat) : State := s.withBuffer s.block.bufAddr (BitVec.ofNat 32 m)

/-- The machine that has run CIPHER over the first `m` bytes and is set up for the next `n`, with CTR = CCTR
(45_keystream_cipher.md R219). -/
def State.secondPart (s : State) (m n : Nat) : State :=
  ((s.firstPart m).ciphered.withCtr (s.firstPart m).ciphered.block.cctr).withBuffer
    (s.block.bufAddr + BitVec.ofNat 32 m) (BitVec.ofNat 32 n)

theorem firstPart_bufLen_toNat (s : State) {m : Nat} (hm : m < 2 ^ 32) : (s.firstPart m).block.bufLen.toNat = m :=
  toNat_ofNat_of_lt hm

theorem secondPart_bufLen_toNat (s : State) (m : Nat) {n : Nat} (hn : n < 2 ^ 32) :
    (s.secondPart m n).block.bufLen.toNat = n :=
  toNat_ofNat_of_lt hn

theorem cipherBytes_bufAddr (s : State) {k : Nat} (hk : k < 2 ^ 32) :
    (cipherBytes k 0 (cipherStart s)).block.bufAddr = s.block.bufAddr := by
  obtain ⟨hblock, -⟩ := cipherBytes_spec s k hk
  rw [hblock]

theorem follows_firstPart (s : State) (m n : Nat) :
    (cipherBytes n 0 (cipherStart s)).Follows 0 (cipherBytes n 0 (cipherStart (s.firstPart m))) := by
  have hstart : (cipherStart s).Follows 0 (cipherStart (s.firstPart m)) :=
    ⟨rfl, rfl, rfl, rfl, rfl, rfl, rfl, (BitVec.add_zero _).symm⟩
  exact follows_cipherBytes hstart rfl n 0

/-- The second command starts with the counter, the words and the memory that the loop has after `m` bytes. -/
theorem follows_secondPart_start (s : State) {m : Nat} (hm : m < 2 ^ 32) (n : Nat) :
    (cipherBytes m 0 (cipherStart s)).Follows m (cipherStart (s.secondPart m n)) := by
  have hfirst := follows_firstPart s m (s.firstPart m).block.bufLen.toNat
  have hend : (cipherBytes (s.firstPart m).block.bufLen.toNat 0 (cipherStart s)).Follows m
      (cipherStart (s.secondPart m n)) :=
    { hfirst with bufAddr := by rw [cipherBytes_bufAddr s (BitVec.isLt _)]; rfl }
  rwa [firstPart_bufLen_toNat s hm] at hend

/-- The second command ends where the command over both buffers ends. -/
theorem follows_secondPart (s : State) {m n : Nat} (hm : m % 64 = 0) (hlen : s.block.bufLen.toNat = m + n) :
    (cipherBytes s.block.bufLen.toNat 0 (cipherStart s)).Follows m
      (cipherBytes (s.secondPart m n).block.bufLen.toNat 0 (cipherStart (s.secondPart m n))) := by
  have hlt := s.block.bufLen.isLt
  rw [hlen, secondPart_bufLen_toNat s m (by omega), cipherBytes_add, Nat.zero_add]
  exact follows_cipherBytes (follows_secondPart_start s (by omega) n) hm n 0

/-- Settles O44: both parts meet the preconditions, and the second ends where the command over both buffers does. -/
theorem cipherContinuesAStream : Obligations.CipherContinuesAStream := by
  intro s t u m n hm hmn hfault hlen hu hufault ht
  obtain ⟨hruns, rfl⟩ := cipherRuns_of_exec hu hufault
  have hboth : s.block.bufLen.toNat = m + n := by rw [hlen, toNat_ofNat_of_lt hmn]
  have hfirstLen := firstPart_bufLen_toNat s (m := m) (by omega)
  have hsecondLen := secondPart_bufLen_toNat s m (n := n) (by omega)
  have hfirst : cipherRuns (s.firstPart m) :=
    cipherRuns_of_part (k := 0) hruns rfl rfl rfl (BitVec.add_zero _).symm (by omega)
  obtain rfl := eq_ciphered_of_exec hfirst ht
  have hsecond : cipherRuns (s.secondPart m n) :=
    cipherRuns_of_part (k := m) hruns rfl (ciphered_keyLen _) (ciphered_rounds _) rfl (by omega)
  have hend := follows_secondPart s hm hboth
  exact ⟨_, exec_cipher_of_runs hsecond, (ciphered_fault _).trans ((ciphered_fault _).trans hfault),
    hend.mem, hend.cc, hend.x, hend.w⟩

end Sys2Proof.Machine
end

section
/-! The host's reads and writes of the registers, and command issue (spec/46_system.md R232 to R234; spec/10_state.md R32;
spec/20_memory.md R61, R64). -/

namespace Sys2Proof.Machine

variable {s : State} {k : Fin 64} {v : Word} {rest : List HostAction}

/-! ### Host reads -/

/-- A host read at the offset of a register returns that register (46_system.md R232). -/
theorem hostRead_index (b : Block) (r : HostReg) : hostRead r.index b = readReg b r := by
  simp [hostRead, regAt_index]

/-- STATUS as a number: CAUSE stands in bits 11:8 and FAULT in bit 0 (10_state.md R32). -/
theorem statusWord_toNat (b : Block) : (statusWord b).toNat = b.cause.toNat * 256 + b.fault.toNat := by
  have hcause := b.cause.isLt
  have hfault : b.fault.toNat < 2 ^ 8 := by have := b.fault.toNat_le; omega
  have hshift : (b.cause.setWidth 32 <<< 8).toNat = 2 ^ 8 * b.cause.toNat := by
    rw [BitVec.toNat_shiftLeft, BitVec.toNat_setWidth, Nat.shiftLeft_eq]
    omega
  have hbit : ((BitVec.ofBool b.fault).setWidth 32).toNat = b.fault.toNat := by
    rw [BitVec.toNat_setWidth, BitVec.toNat_ofBool]
    omega
  rw [statusWord_eq, BitVec.toNat_or, hshift, hbit, ← Nat.two_pow_add_eq_or_of_lt hfault]
  omega

theorem step_read (hhost : s.host = .read k :: rest) :
    step s = .next { s with host := rest, reads := s.reads ++ [hostRead k s.block] } :=
  step_cons hhost

/-- Settles O12: a register is read at its own index, and the other offsets are reserved. -/
theorem hostReadFollowsTheRegisterMap : Obligations.HostReadFollowsTheRegisterMap := by
  refine ⟨fun b => ⟨hostRead_index b .cmd, ?_, hostRead_index b .fcmd, hostRead_index b .keyLen, hostRead_index b .rounds,
    hostRead_index b .ctr, hostRead_index b .bufAddr, hostRead_index b .bufLen, hostRead_index b .cctr,
    hostRead_index b .nblk, fun k j hk => ?_, fun k j hk => ?_, fun k i hk => ?_, fun k i hk => ?_, fun k hk => ?_⟩,
    fun _ _ _ => step_read⟩
  · rw [hostRead_status, statusWord_toNat]
  · obtain rfl : k = (HostReg.keyw j).index := Fin.ext hk
    exact hostRead_index b (.keyw j)
  · obtain rfl : k = (HostReg.noncew j).index := Fin.ext hk
    exact hostRead_index b (.noncew j)
  · obtain rfl : k = (HostReg.x i).index := Fin.ext hk
    exact hostRead_index b (.x i)
  · obtain rfl : k = (HostReg.w i).index := Fin.ext hk
    exact hostRead_index b (.w i)
  · exact hostRead_of_reserved ((regAt_eq_none_iff k).mpr hk) b

/-! ### Host writes -/

theorem step_write (hhost : s.host = .write k v :: rest) : step s = hostWrite k v { s with host := rest } :=
  step_cons hhost

/-- A host write to a faulted block only leaves the host's list (60_exceptions.md R249). -/
theorem step_write_of_faulted (hhost : s.host = .write k v :: rest) (hfault : s.block.fault = true) :
    step s = .next { s with host := rest } :=
  (step_write hhost).trans (if_pos hfault)

/-- A host write to a register other than CMD stores to that register (46_system.md R233). -/
theorem step_write_register (hhost : s.host = .write k v :: rest) (hfault : s.block.fault = false) {r : HostReg}
    (hk : k.val = r.index.val) (hr : r ≠ .cmd) :
    step s = .next { s with host := rest, block := writeReg s.block r v } := by
  obtain rfl : k = r.index := Fin.ext hk
  rw [step_write hhost]
  have hreg := regAt_index r
  obtain ⟨htrue, -⟩ | ⟨-, hnone, -⟩ | ⟨-, hcmd, -⟩ | ⟨r', -, hr', -, e⟩ :=
    hostWrite_cases r.index v { s with host := rest }
  · exact absurd (hfault.symm.trans htrue) nofun
  · exact absurd (hreg.symm.trans hnone) nofun
  · exact absurd (Option.some.inj (hreg.symm.trans hcmd)) hr
  · obtain rfl : r = r' := Option.some.inj (hreg.symm.trans hr')
    exact e

/-- The bytes of KEY after a write to KEYWj, as numbers (20_memory.md R64). -/
theorem setKeyWord_getElem_toNat (key : Vector Byte 32) (j : Fin 8) (v : Word) (i : Fin 32) :
    (setKeyWord key j v)[i].toNat =
      if i.val / 4 = j.val then v.toNat / 2 ^ (8 * (i.val % 4)) % 256 else key[i].toNat := by
  rw [setKeyWord_getElem, apply_ite BitVec.toNat, byteOf_toNat]

/-- The bytes of NONCE after a write to NONCEWj, as numbers (20_memory.md R64). -/
theorem setNonceWord_getElem_toNat (nonce : Vector Byte 12) (j : Fin 3) (v : Word) (i : Fin 12) :
    (setNonceWord nonce j v)[i].toNat =
      if i.val / 4 = j.val then v.toNat / 2 ^ (8 * (i.val % 4)) % 256 else nonce[i].toNat := by
  rw [setNonceWord_getElem, apply_ite BitVec.toNat, byteOf_toNat]

/-- Settles O13: a write is ignored while faulted, issues at CMD, stores to the register at its own index, and is ignored at
the reserved and read-only offsets of O15. -/
theorem hostWriteFollowsTheRegisterMap : Obligations.HostWriteFollowsTheRegisterMap := by
  intro s k v rest hhost
  refine ⟨step_write_of_faulted hhost, fun hfault => ?_⟩
  have store : ∀ r : HostReg, r ≠ .cmd → k.val = r.index.val →
      step s = .next { s with host := rest, block := writeReg s.block r v } :=
    fun r hr hk => step_write_register hhost hfault hk hr
  refine ⟨fun hk => ?_, store .keyLen nofun, store .rounds nofun, store .ctr nofun, store .bufAddr nofun,
    store .bufLen nofun, fun hlo hhi => ?_, fun hlo hhi => ?_, fun i => store (.x i) nofun, fun i => store (.w i) nofun,
    fun hk => ?_⟩
  · obtain rfl : k = 0 := Fin.ext hk
    exact step_of_issue hhost hfault
  · have hj : k.val - 16 < 8 := by omega
    have hk : k.val = 16 + (k.val - 16) := by omega
    exact ⟨_, store (.keyw ⟨k.val - 16, hj⟩) nofun hk, setKeyWord_getElem_toNat s.block.key ⟨k.val - 16, hj⟩ v⟩
  · have hj : k.val - 24 < 3 := by omega
    have hk : k.val = 24 + (k.val - 24) := by omega
    exact ⟨_, store (.noncew ⟨k.val - 24, hj⟩) nofun hk, setNonceWord_getElem_toNat s.block.nonce ⟨k.val - 24, hj⟩ v⟩
  · obtain ⟨-, hignored⟩ := reservedAndReadOnlyOffsets
    exact (step_write hhost).trans (hignored k v _ hk)

/-! ### Command issue and WIPE -/

/-- Issuing a legal word executes its command (46_system.md R234). -/
theorem issue_of_cmd {w : Word} {i : Instr} (hdecode : decode w = .cmd i) (s : State) : issue w s = exec i s := by
  simp [issue, hdecode]

/-- A command that faults an unfaulted block records its own word in FCMD (60_exceptions.md R247). -/
theorem exec_fcmd_of_fault {i : Instr} {t : State} (h : exec i s = .next t) (hbefore : s.block.fault = false)
    (hafter : t.block.fault = true) : t.block.fcmd = encode i := by
  obtain ⟨c, -, rfl⟩ | ⟨-, rfl⟩ | ⟨-, -, rfl⟩ := exec_next_cases h
  · rfl
  · exact absurd (hbefore.symm.trans hafter) nofun
  · obtain ⟨x, w, cctr, nblk, mem, heq, -, -⟩ := cipherEnd_effect s
    rw [heq] at hafter
    exact absurd (hbefore.symm.trans hafter) nofun

/-- Settles O6: the word recorded is the encoding of the command, which O2 says is the word issued. -/
theorem stepRunsTheDecodedCommand : Obligations.StepRunsTheDecodedCommand := by
  refine fun s w rest hhost =>
    ⟨fun hfault i hdecode => ?_, fun hfault _ => step_of_illegal hhost hfault, step_write_of_faulted hhost⟩
  have hstep : step s = exec i { s with host := rest } :=
    (step_of_issue hhost hfault).trans (issue_of_cmd hdecode _)
  obtain ⟨-, hword⟩ := encodeOfDecodeIsTheWord w i hdecode
  refine ⟨hstep, fun t ht hfaulted => ?_⟩
  rw [hstep] at ht
  exact (exec_fcmd_of_fault ht hfault hfaulted).trans hword

/-- WIPE completes in every state and writes X and W alone (46_system.md R230). -/
theorem exec_wipe (s : State) :
    exec .wipe s = .next (s.withBlock { s.block with x := Vector.replicate 16 0, w := Vector.replicate 16 0 }) := rfl

/-- Settles O47: the word is the encoding of WIPE, and WIPE has no precondition. -/
theorem wipeZeroesXAndW : Obligations.WipeZeroesXAndW :=
  ⟨(decode_eq_cmd_iff rfl _).mpr rfl, fun _ _ => step_write_of_faulted,
    fun s => ⟨_, _, exec_wipe s, fun i => ⟨Vector.getElem_replicate i.isLt, Vector.getElem_replicate i.isLt⟩⟩⟩

end Sys2Proof.Machine
end

section
/-! Faults: that FCMD and the registers explain them, that they are precise, and that only reset ends them
(spec/60_exceptions.md R240 to R250). -/

namespace Sys2Proof.Machine

variable {i : Instr} {s t : State} {w : Word}

/-! ### What a command does to STATUS and FCMD -/

/-- A command takes a fault whose condition it meets, or leaves FAULT, CAUSE and FCMD alone (R247, R248). -/
theorem exec_fault_cases (h : exec i s = .next t) :
    (∃ c, raisesCause i s c ∧ t = s.raise c (encode i)) ∨
    (t.block.fault = s.block.fault ∧ t.block.cause = s.block.cause ∧ t.block.fcmd = s.block.fcmd) := by
  obtain ⟨c, hcause, rfl⟩ | ⟨-, rfl⟩ | ⟨-, -, rfl⟩ := exec_next_cases h
  · exact .inl ⟨c, hcause, rfl⟩
  · exact .inr ⟨rfl, rfl, rfl⟩
  · obtain ⟨x, w, cctr, nblk, mem, heq, -, -⟩ := cipherEnd_effect s
    rw [heq]
    exact .inr ⟨rfl, rfl, rfl⟩

theorem exec_raises_of_fault (h : exec i s = .next t) (hbefore : s.block.fault = false) (hafter : t.block.fault = true) :
    ∃ c, raisesCause i s c ∧ t = s.raise c (encode i) := by
  obtain hraise | ⟨hkeep, -, -⟩ := exec_fault_cases h
  · exact hraise
  · rw [hkeep, hbefore] at hafter
    cases hafter

/-! ### The explanation of a fault (R240 to R244) -/

/-- The word of a command that meets the condition of a fault explains that fault, since fault entry leaves KEY_LEN, ROUNDS
and BUF_LEN alone. -/
theorem enterFault_explained_of_cmd {c : Cause} (hdecode : decode w = .cmd i) (hcause : raisesCause i s c) :
    (s.block.enterFault c w).faultExplained := by
  have hword : ∀ j, i = j → decode w = .cmd j := fun j e => e ▸ hdecode
  cases c with
  | eRot =>
    obtain ⟨a, b, n, hi, hamount⟩ := hcause
    exact .inl ⟨rfl, a, b, n, hword _ hi, by omega⟩
  | eKeyLen =>
    obtain ⟨hkey, hi⟩ := hcause
    exact .inr (.inl ⟨rfl, hkey, hi.imp (hword _) (Or.imp (hword _) (hword _))⟩)
  | eRounds =>
    obtain ⟨hrounds, hi⟩ := hcause
    exact .inr (.inr (.inl ⟨rfl, hrounds,
      hi.imp (hword _) (Or.imp (And.imp_left (hword _)) (And.imp_left (hword _)))⟩))
  | eCmd =>
    obtain ⟨hwf, -⟩ := encodeOfDecodeIsTheWord w i hdecode
    exact absurd (hwf.symm.trans hcause) nofun

/-- Settles O52: the steps that leave a faulted block keep the whole block, take the fault of an illegal word, or take a fault
whose condition the decoded command meets. -/
theorem stepKeepsTheFaultExplained : Obligations.StepKeepsTheFaultExplained := by
  intro s t hbefore h hfault
  obtain hkeep | hreset | ⟨r, v, hf, hwrite, -⟩ | ⟨w, rest, why, -, hf, hdecode, rfl⟩ |
    ⟨w, i, rest, -, hf, hdecode, hexec⟩ := step_block_cases h
  · rw [hkeep] at hfault ⊢
    exact hbefore hfault
  · rw [hreset] at hfault
    cases hfault
  · obtain ⟨hsame, -, -, -, -⟩ := writeReg_status s.block r v
    rw [hwrite, hsame, hf] at hfault
    cases hfault
  · exact .inr (.inr (.inr ⟨rfl, why, hdecode⟩))
  · obtain ⟨c, hcause, rfl⟩ := exec_raises_of_fault hexec hf hfault
    obtain ⟨-, hword⟩ := encodeOfDecodeIsTheWord w i hdecode
    rw [hword]
    exact enterFault_explained_of_cmd (s := { s with host := rest }) hdecode hcause

/-! ### The faulted state (R249, R250) -/

/-- No action of the host but reset changes a faulted block. -/
theorem hostAct_of_faulted {act : HostAction} (hfault : s.block.fault = true) (hact : act ≠ .reset)
    (h : hostAct act s = .next t) : t.block = s.block := by
  cases act with
  | reset => exact absurd rfl hact
  | read k => exact Host.Outcome.next.inj h ▸ rfl
  | write k v =>
    have hignored : hostAct (.write k v) s = .next s := if_pos hfault
    exact Host.Outcome.next.inj (hignored.symm.trans h) ▸ rfl
  | load a =>
    simp only [hostAct] at h
    split at h
    · exact Host.Outcome.next.inj h ▸ rfl
    · cases h
  | store a v =>
    simp only [hostAct] at h
    split at h
    · exact Host.Outcome.next.inj h ▸ rfl
    · cases h

/-- A step leaves a faulted block as it is, or is the host's reset. -/
theorem step_of_faulted_cases (hfault : s.block.fault = true) (h : step s = .next t) :
    t.block = s.block ∨ ((∃ rest, s.host = .reset :: rest) ∧ t.block = Block.reset) := by
  cases hhost : s.host with
  | nil => exact .inl (Host.Outcome.next.inj ((step_nil hhost).symm.trans h) ▸ rfl)
  | cons act rest =>
    rw [step_cons hhost] at h
    by_cases hact : act = .reset
    · subst hact
      exact .inr ⟨⟨rest, rfl⟩, Host.Outcome.next.inj h ▸ rfl⟩
    · exact .inl (hostAct_of_faulted (s := { s with host := rest }) hfault hact h)

/-- Settles O8: a write is ignored, a read only returns its value, and a step that is no reset keeps the block. -/
theorem faultedBlockIsFrozen : Obligations.FaultedBlockIsFrozen := by
  intro s act rest hhost hfault
  refine ⟨?_, ?_, fun hact t h => ?_⟩
  · rintro k v rfl
    exact step_write_of_faulted hhost hfault
  · rintro k rfl
    exact step_read hhost
  · obtain hkeep | ⟨⟨rest', hreset⟩, -⟩ := step_of_faulted_cases hfault h
    · exact hkeep
    · obtain ⟨hhead, -⟩ := List.cons.inj (hhost.symm.trans hreset)
      exact absurd hhead hact

/-- Settles O9: the step either keeps the block, with its CAUSE and FCMD, or is the reset, which leaves it unfaulted. -/
theorem onlyResetClearsFault : Obligations.OnlyResetClearsFault := by
  intro s t hfault h
  obtain hkeep | ⟨hreset, hblock⟩ := step_of_faulted_cases hfault h
  · rw [hkeep]
    exact ⟨fun hclear => absurd (hfault.symm.trans hclear) nofun, fun _ => ⟨rfl, rfl⟩⟩
  · rw [hblock]
    exact ⟨fun _ => hreset, nofun⟩

/-! ### Precision (R247, R248) -/

/-- Settles O51: the only way into the faulted state is fault entry, and STATUS then shows its code. -/
theorem faultsArePrecise : Obligations.FaultsArePrecise := by
  refine fun i s t h hbefore => ⟨fun hafter => ?_, fun hafter => ?_⟩
  · obtain ⟨c, -, rfl⟩ := exec_raises_of_fault h hbefore hafter
    refine ⟨c.code, raise_eq s c _, ?_, cause_code_cases c⟩
    rw [hostRead_status, statusWord_toNat]
    rfl
  · obtain ⟨c, -, rfl⟩ | ⟨-, hcause, hfcmd⟩ := exec_fault_cases h
    · cases hafter
    · exact ⟨hcause, hfcmd⟩

end Sys2Proof.Machine
end

section
/-! Which commands raise E_KEYLEN and E_ROUNDS, which do not read KEY_LEN or ROUNDS, and the order of the tests
(spec/60_exceptions.md R241 to R246; spec/70_reset_and_hazards.md R271). -/

namespace Sys2Proof.Machine

/-! ### Commands that do not read KEY_LEN or ROUNDS (R242, R243) -/

/-- The same machine with KEY_LEN and ROUNDS replaced, each by a function of its own value: `id` leaves one of the two as it
is. -/
def State.mapLimits (f g : Word → Word) (s : State) : State :=
  s.withBlock { s.block with keyLen := f s.block.keyLen, rounds := g s.block.rounds }

theorem withKeyLen_eq_mapLimits (v : Word) : (fun s : State => s.withKeyLen v) = State.mapLimits (fun _ => v) id := rfl

theorem withRounds_eq_mapLimits (v : Word) : (fun s : State => s.withRounds v) = State.mapLimits id (fun _ => v) := rfl

/-- A QR term with two equal indices raises E_CMD (30_encoding.md R94; log 9). -/
theorem exec_qr_of_not_nodup {a b c d : WIndex} (h : ¬[a, b, c, d].Nodup) (s : State) :
    exec (.qr a b c d) s = .next (s.raise .eCmd (encode (.qr a b c d))) :=
  if_neg ((distinctIndices_iff_nodup a b c d).not.mpr h)

/-- ROTL, QR, COPY, FINAL and WIPE read neither KEY_LEN nor ROUNDS: ROTL and QR choose their branch by their operands, and the
other three have one branch. -/
theorem exec_mapLimits {i : Instr} (hi : i ∉ [Instr.init, .permute, .block, .cipher]) (f g : Word → Word) (s : State) :
    exec i (s.mapLimits f g) = mapNext (State.mapLimits f g) (exec i s) := by
  cases i with
  | rotl a b n =>
    by_cases h : 1 ≤ n.toNat ∧ n.toNat ≤ 31
    · rw [exec_rotl_of_legal h, exec_rotl_of_legal h]
      rfl
    · rw [exec_rotl_of_illegal h, exec_rotl_of_illegal h]
      rfl
  | qr a b c d =>
    by_cases h : [a, b, c, d].Nodup
    · rw [exec_qr_of_nodup h, exec_qr_of_nodup h]
      rfl
    · rw [exec_qr_of_not_nodup h, exec_qr_of_not_nodup h]
      rfl
  | copy => rfl
  | final => rfl
  | wipe => rfl
  | init => simp at hi
  | permute => simp at hi
  | block => simp at hi
  | cipher => simp at hi

/-- PERMUTE does not read KEY_LEN (43_permutation.md R183). -/
theorem exec_permute_withKeyLen (s : State) (v : Word) :
    exec .permute (s.withKeyLen v) = mapNext (fun t => t.withKeyLen v) (exec .permute s) := by
  cases h : roundsValid s.block.rounds with
  | true =>
    rw [exec_permute_of_rounds_valid (s := s.withKeyLen v) h, exec_permute_of_rounds_valid h]
    rfl
  | false =>
    rw [exec_permute_of_rounds_invalid (s := s.withKeyLen v) h, exec_permute_of_rounds_invalid h]
    rfl

/-- INIT does not read ROUNDS (42_state_initializer.md R165). -/
theorem exec_init_withRounds (s : State) (v : Word) :
    exec .init (s.withRounds v) = mapNext (fun t => t.withRounds v) (exec .init s) := by
  by_cases h : s.block.keyLen = 32
  · rw [exec_init_of_keyLen_eq (s := s.withRounds v) h, exec_init_of_keyLen_eq h]
    rfl
  · rw [exec_init_of_keyLen_ne (s := s.withRounds v) h, exec_init_of_keyLen_ne h]
    rfl

/-- Settles O48: the test on KEY_LEN is the first of the three commands; PERMUTE tests ROUNDS alone, and the other five neither
register. -/
theorem keyLengthFault : Obligations.KeyLengthFault := by
  constructor
  · rintro i s (rfl | rfl | rfl) hkey
    · exact exec_init_of_keyLen_ne hkey
    · exact exec_block_of_keyLen_ne hkey
    · exact exec_cipher_of_keyLen_ne hkey
  · intro i s v hinit hblock hcipher
    by_cases hpermute : i = .permute
    · subst hpermute
      exact exec_permute_withKeyLen s v
    · have hother : i ∉ [Instr.init, .permute, .block, .cipher] := by simp [hinit, hpermute, hblock, hcipher]
      rw [withKeyLen_eq_mapLimits]
      exact exec_mapLimits hother (fun _ => v) id s

/-- Settles O49: the test on ROUNDS follows the one on KEY_LEN, if any; INIT tests KEY_LEN alone, and the other five neither
register. -/
theorem roundCountFault : Obligations.RoundCountFault := by
  constructor
  · rintro i s hrounds (rfl | ⟨rfl, hkey⟩ | ⟨rfl, hkey, hlen⟩)
    · exact exec_permute_of_rounds_invalid hrounds
    · exact exec_block_of_rounds_invalid hkey hrounds
    · exact exec_cipher_of_rounds_invalid hkey hlen hrounds
  · intro i s v hpermute hblock hcipher
    by_cases hinit : i = .init
    · subst hinit
      exact exec_init_withRounds s v
    · have hother : i ∉ [Instr.init, .permute, .block, .cipher] := by simp [hinit, hpermute, hblock, hcipher]
      rw [withRounds_eq_mapLimits]
      exact exec_mapLimits hother id (fun _ => v) s

/-! ### The order of the tests (R246) -/

/-- The opcode of an encoding and the operand bits that its format leaves 0 (30_encoding.md R91, R93). -/
theorem encode_unused_bits (i : Instr) :
    ((encode i).toNat / 2 ^ 24 = 0x01 ∧ (encode i).toNat / 2 ^ 8 % 2 ^ 8 = 0) ∨ (encode i).toNat / 2 ^ 24 = 0x02 ∨
      ((encode i).toNat / 2 ^ 24 ≠ 0x01 ∧ (encode i).toNat % 2 ^ 24 = 0) := by
  cases i with
  | rotl a b n =>
    rw [encode_rotl_toNat]
    omega
  | qr a b c d =>
    rw [encode_qr_toNat]
    omega
  | _ => exact .inr (.inr (by decide))

/-- A word with a bit set that the format of its opcode leaves unused is the encoding of no command (30_encoding.md R95, R96). -/
theorem decode_illegal_of_reserved_bits {w : Word}
    (h : (w.toNat / 2 ^ 24 = 0x01 ∧ w.toNat / 2 ^ 8 % 2 ^ 8 ≠ 0) ∨
      (w.toNat / 2 ^ 24 ≠ 0x01 ∧ w.toNat / 2 ^ 24 ≠ 0x02 ∧ w.toNat % 2 ^ 24 ≠ 0)) :
    ∃ why, decode w = .illegal why := by
  cases hdecode : decode w with
  | illegal why => exact ⟨why, rfl⟩
  | cmd i =>
    obtain ⟨-, rfl⟩ := encodeOfDecodeIsTheWord w i hdecode
    have hbits := encode_unused_bits i
    omega

/-- Settles O50: words with a reserved bit set are illegal before any precondition is tested; the preconditions are tested KEY_LEN
first, and ROTL tests its amount alone. -/
theorem faultPriority : Obligations.FaultPriority := by
  refine ⟨fun s w rest hhost hfault hop hreserved => ?_, fun s w rest hhost hfault hop hreserved => ?_, ?_,
    fun s a b n hamount _ => exec_rotl_of_illegal (by omega) a b s⟩
  · obtain ⟨why, hdecode⟩ := decode_illegal_of_reserved_bits (.inl ⟨hop, hreserved⟩)
    exact step_of_illegal hhost hfault hdecode
  · obtain ⟨why, hdecode⟩ := decode_illegal_of_reserved_bits (.inr ⟨by omega, by omega, hreserved⟩)
    exact step_of_illegal hhost hfault hdecode
  · rintro s i (rfl | rfl) hkey -
    · exact exec_block_of_keyLen_ne hkey
    · exact exec_cipher_of_keyLen_ne hkey

/-! ### The waiting block and the first command after reset (70_reset_and_hazards.md R271) -/

/-- Settles O18: a step with an empty list of actions takes the waiting branch. -/
theorem idleBlockWaits : Obligations.IdleBlockWaits := fun _ => step_nil

theorem exec_rotl_reset {n : Byte} (h : 1 ≤ n.toNat ∧ n.toNat ≤ 31) (a b : WIndex) :
    exec (.rotl a b n) State.reset = .next State.reset := by
  have hword : State.reset.block.w[b] = 0 := reset_w_getElem b
  have hset : State.reset.block.setW a 0 = State.reset.block := by
    simp only [Block.setW, State.reset, Block.reset, Vector.set_replicate_self]
  rw [exec_rotl_of_legal h, hword, rotl32_zero, hset, withBlock_self]

theorem exec_qr_reset {a b c d : WIndex} (h : [a, b, c, d].Nodup) :
    exec (.qr a b c d) State.reset = .next State.reset := by
  have hwords : qrWords a b c d State.reset.block.w = State.reset.block.w := qrWords_zero a b c d
  rw [exec_qr_of_nodup h, hwords]
  rfl

theorem exec_final_reset : exec .final State.reset = .next State.reset := by
  have hwords : addWords State.reset.block.x State.reset.block.w = State.reset.block.x := by decide
  rw [exec_final, hwords]
  rfl

/-- Settles O11: KEY_LEN and ROUNDS are 0, which no test admits, and the commands without a failing test map zeros to zeros. -/
theorem commandsRightAfterReset : Obligations.CommandsRightAfterReset := by
  have hkey : State.reset.block.keyLen ≠ 32 := by decide
  have hrounds : roundsValid State.reset.block.rounds = false := by decide
  refine ⟨rfl, ?_, exec_permute_of_rounds_invalid hrounds, fun a b n hlow hhigh => exec_rotl_reset ⟨hlow, hhigh⟩ a b,
    fun a b c d h => exec_qr_reset ((distinctIndices_iff_nodup a b c d).mp h), ?_⟩
  · rintro i (rfl | rfl | rfl)
    · exact exec_init_of_keyLen_ne hkey
    · exact exec_block_of_keyLen_ne hkey
    · exact exec_cipher_of_keyLen_ne hkey
  · rintro i (rfl | rfl | rfl)
    · rfl
    · exact exec_final_reset
    · rfl

end Sys2Proof.Machine
end
